-- ==== Sys2Proof/Word.lean ====
section
/-! DEFINITION. The words of the block: every datum it moves is one byte (R45), and three operand or register
widths go with it (R28, R66). -/

namespace Sys2Proof

/-- A segment code, a wire byte, a symbol or an opcode: 8 bits (R45, R54, R56, R65). -/
abbrev Byte := BitVec 8

/-- The 4-bit level registers `lvl` and `anim_saved` (R28, R32). Legal values are 0..8. -/
abbrev Level := BitVec 4

/-- An unsigned 32-bit millisecond count: an interval or a timestamp (R30, R31, R100). -/
abbrev Millis := BitVec 32

/-- A two's complement 32-bit operand: a level number or a number to show (R66, type `i32`). -/
abbrev Int32Word := BitVec 32

end Sys2Proof
end

