-- ==== Sys2Proof/Config.lean ====
section
/-! DEFINITION. What an implementation of the block fixes (the parameters of R7), as plain data, and the free
values: constants with no body, for what no rule gives a value. Which configurations are legal, and the test
configuration TC0, are in Machine/Params.lean. -/

namespace Sys2Proof

/-- The two encoder table variants (R7 `P_ENC_VARIANT`, R58). -/
inductive EncVariant where
  | digitsAlpha
  | ascii
  deriving DecidableEq, Repr

/-- The two refresh addressing modes (R7 `P_ADDR_MODE`, R99). -/
inductive AddrMode where
  | auto
  | fixed
  deriving DecidableEq, Repr

/-- The names of the timing parameters (R7 `P_T_BIT`, `P_T_ACK`, `P_T_SETTLE`, `P_T_FRAME`). -/
inductive TimeParam where
  | tBit
  | tAck
  | tSettle
  | tFrame
  deriving DecidableEq, Repr

/-- The parameters of R7 that differ from one implementation to another. None of them changes during a run
(R14). `P_FADE_FLOOR` and the widths are decided by the spec and are definitions, not fields; the timing
parameters are `Config.microseconds`. -/
structure Config where
  /-- `P_N`: the number of physical digit positions. -/
  pN : Nat
  /-- `P_CACHE_CAP`: the number of buffer cells. -/
  cacheCap : Nat
  /-- `P_ENC_VARIANT`. -/
  encVariant : EncVariant
  /-- The entries of `P_ENC` this implementation states, as (symbol, code). A symbol that R57 leaves OPEN and
  that is not listed here has the free code `Config.openCode` (assumption 5). -/
  encEntries : List (Byte × Byte)
  /-- `P_PCT[0..8]`, exact rationals (R93). -/
  pct : Vector Rat 9
  /-- `P_DEFAULT_LEVEL`. -/
  defaultLevel : Level
  /-- `P_RESET_LEVEL`. -/
  resetLevel : Level
  /-- `P_ADDR_MODE`. -/
  addrMode : AddrMode
  /-- `P_CMD_DATA_AUTO`. -/
  cmdDataAuto : Byte
  /-- `P_CMD_DATA_FIXED`. -/
  cmdDataFixed : Byte
  /-- `P_CMD_ADDR`. -/
  cmdAddr : Byte
  /-- `P_CMD_DISP`. -/
  cmdDisp : Byte
  /-- `P_DISP_ON`. -/
  dispOn : Byte
  deriving DecidableEq, Repr

/-- FREE VALUE. The level the chip drives on DIO at its n-th acknowledgement sample, true for 1 (R77: "the
model puts no law on it"). It is used only for a sample whose level the state's `acks` does not list
(assumption 4). -/
opaque Config.ackDraw : Nat → Bool

/-- FREE VALUE. The seven segment bits of a symbol whose entry of `P_ENC` is OPEN (R58). Bit 7 of every code
is 0 (R82), so seven bits are free (assumption 5). -/
opaque Config.openCode : EncVariant → Byte → BitVec 7

/-- FREE VALUE. The microseconds of each timing parameter: OPEN in R7, lower bounds but for `P_T_ACK`
(assumption 8). -/
opaque Config.microseconds : TimeParam → Nat

end Sys2Proof
end

