-- ==== Sys2Proof/Machine/Params.lean ====
section
/-! DEFINITION. The parameters of R7: the decided constants, the encoder table P_ENC (R57, R58, R82), the default
percent table (R93), which configurations are legal (R7, R82, R93, R116) and the test configuration TC0 (R8). -/

namespace Sys2Proof

/-! ### Decided constants -/

/-- `P_FADE_FLOOR`, the lowest level a fade-out reaches: 1 (R7, R104). -/
def fadeFloor : Level := 1#4

/-- The highest level (R92). -/
def topLevel : Level := 8#4

/-! ### The encoder table -/

/-- R57: the entries of `P_ENC` that both variants share. -/
def fixedCode (sym : Byte) : Option Byte :=
  match sym.toNat with
  | 0x30 => some 0x3F#8
  | 0x31 => some 0x06#8
  | 0x32 => some 0x5B#8
  | 0x33 => some 0x4F#8
  | 0x34 => some 0x66#8
  | 0x35 => some 0x6D#8
  | 0x36 => some 0x7D#8
  | 0x37 => some 0x07#8
  | 0x38 => some 0x7F#8
  | 0x39 => some 0x6F#8
  | 0x2D => some 0x40#8
  | 0x20 => some 0x00#8
  | _ => none

/-- R57: `ZERO_CODE`, the code of '0'. -/
def zeroCode : Byte := 0x3F#8

/-- R82, property 5: the symbols that a variant's table may map beside the entries of R57: lowercase letters under
`DIGITS_ALPHA`, the printable range 0x20..0x7E under `ASCII` (assumption 6). -/
def openSymbol (v : EncVariant) (sym : Byte) : Bool :=
  match v with
  | .digitsAlpha => decide (0x61 ≤ sym.toNat ∧ sym.toNat ≤ 0x7A)
  | .ascii => decide (0x20 ≤ sym.toNat ∧ sym.toNat ≤ 0x7E)

/-- R82: `P_ENC`, total on every symbol. An entry the configuration states; else a fixed entry of R57; else, for a
symbol the variant may map, the free code (R58: OPEN); else blank. -/
def Config.enc (c : Config) (sym : Byte) : Byte :=
  match c.encEntries.lookup sym with
  | some code => code
  | none =>
    match fixedCode sym with
    | some code => code
    | none => if openSymbol c.encVariant sym then 0#1 ++ Config.openCode c.encVariant sym else 0x00#8

/-- R82: a stated entry keeps bit 7 clear, agrees with R57, and is blank for a symbol outside the variant's table. -/
def encEntryLegal (v : EncVariant) (e : Byte × Byte) : Bool :=
  !e.2.getLsbD 7 &&
    match fixedCode e.1 with
    | some code => e.2 == code
    | none => openSymbol v e.1 || e.2 == 0x00#8

/-! ### The percent table -/

/-- A fraction in lowest terms, as the rational it is. -/
def ratio (n : Int) (d : Nat) (hd : d ≠ 0 := by decide) (hc : n.natAbs.Coprime d := by decide) : Rat :=
  ⟨n, d, hd, hc⟩

/-- R93: the default table, `[0, 25/4, 25/2, 25, 125/2, 275/4, 75, 325/4, 175/2]`. -/
def defaultPct : Vector Rat 9 :=
  #v[ratio 0 1, ratio 25 4, ratio 25 2, ratio 25 1, ratio 125 2, ratio 275 4, ratio 75 1, ratio 325 4, ratio 175 2]

/-- R93's fourth constraint for one level: the percent is `l/8*100`. -/
def linearAt (l : Fin 9) (q : Rat) : Bool := q.num * 8 == (l.val : Int) * 100 * (q.den : Int)

/-- R93: 0 for level 0, strictly increasing, within 0..100, and not `l/8*100` for every l. -/
def pctLegal (t : Vector Rat 9) : Bool :=
  decide (t[(0 : Fin 9)] = 0) &&
  decide (∀ l : Fin 8, t[l.castSucc] < t[l.succ]) &&
  decide (∀ l : Fin 9, 0 ≤ t[l] ∧ t[l] ≤ ratio 100 1) &&
  !decide (∀ l : Fin 9, linearAt l t[l] = true)

/-! ### Configurations -/

/-- The constraints of R7 on a configuration; R116: one that breaks a constraint is refused. -/
def Config.legal (c : Config) : Bool :=
  decide (1 ≤ c.pN ∧ c.pN ≤ 6) &&
  decide (c.pN ≤ c.cacheCap ∧ c.cacheCap ≤ 255) &&
  c.encEntries.all (encEntryLegal c.encVariant) &&
  pctLegal c.pct &&
  decide (1 ≤ c.defaultLevel.toNat ∧ c.defaultLevel.toNat ≤ 8) &&
  decide (c.resetLevel.toNat ≤ 8)

/-- R8: the test configuration TC0, with the defaults of R7 for what R8 does not name (assumption 7). -/
def Config.tc0 : Config where
  pN := 4
  cacheCap := 16
  encVariant := .digitsAlpha
  encEntries := []
  pct := defaultPct
  defaultLevel := 8#4
  resetLevel := 0#4
  addrMode := .auto
  cmdDataAuto := 0x40#8
  cmdDataFixed := 0x44#8
  cmdAddr := 0xC0#8
  cmdDisp := 0x80#8
  dispOn := 0x08#8

end Sys2Proof
end

