-- ==== Sys2Proof/Syntax.lean ====
section
/-! DEFINITION. The instructions, one constructor for each of the 27 rows of spec/opcode_table.json: the 21 host
operations of R67 and the six wire byte classes of R59 to R63; and the encoded forms a decoder reads. -/

namespace Sys2Proof

/-- One instruction. Operand types are those of R66: `u8` is a byte, `bit` a Bool (true for 1), `i32` and `u32`
are 32-bit words, `lvl` is `Fin 9`, so that a level outside 0..8 "cannot be written down", `rat` is an exact
rational, and `sym*` is a list of bytes whose length `Instr.wellFormed` bounds. -/
inductive Instr where
  /-- BEGIN, opcode 0x01 (R74). -/
  | beginFrame
  /-- END, opcode 0x02 (R75). -/
  | endFrame
  /-- SEND b, opcode 0x03 (R76). -/
  | send (b : Byte)
  /-- ENCODE s, opcode 0x10 (R82). -/
  | encodeSym (sym : Byte)
  /-- SETCONTENT syms, off, ovf, pad, opcode 0x11 (R84). -/
  | setContent (syms : List Byte) (off : Byte) (ovf : Bool) (pad : Bool)
  /-- SETNUMBER v, off, ovf, pad, opcode 0x12 (R86). -/
  | setNumber (v : Int32Word) (off : Byte) (ovf : Bool) (pad : Bool)
  /-- OVERLAY, opcode 0x13 (R88). -/
  | overlay
  /-- CLEAR, opcode 0x14 (R89). -/
  | clear
  /-- SETCOLON c, opcode 0x15 (R90). -/
  | setColon (c : Bool)
  /-- SETDP m, opcode 0x16 (R91). -/
  | setDp (m : Byte)
  /-- FROMLEVEL n, opcode 0x20 (R94). -/
  | fromLevel (n : Int32Word)
  /-- TOPERCENT l, opcode 0x21 (R95). -/
  | toPercent (l : Fin 9)
  /-- FROMPERCENT p, opcode 0x22 (R96). -/
  | fromPercent (p : Rat)
  /-- SETLEVEL n, opcode 0x23 (R97). -/
  | setLevel (n : Int32Word)
  /-- SETPERCENT p, opcode 0x24 (R98). -/
  | setPercent (p : Rat)
  /-- REFRESH, opcode 0x30 (R99). -/
  | refresh
  /-- BLINK d, now, opcode 0x40 (R107). -/
  | blink (d now : Millis)
  /-- FADEOUT d, now, opcode 0x41 (R108). -/
  | fadeOut (d now : Millis)
  /-- FADEIN d, now, opcode 0x42 (R109). -/
  | fadeIn (d now : Millis)
  /-- SCROLL d, now, opcode 0x43 (R110). -/
  | scroll (d now : Millis)
  /-- RESETANIM, opcode 0x44 (R111). -/
  | resetAnim
  /-- The wire byte 0x40: data command, automatic increment (R59). -/
  | wireDataAuto
  /-- The wire byte 0x44: data command, fixed addressing (R59). -/
  | wireDataFixed
  /-- The wire byte 0b1100_aaaa: address command (R60). -/
  | wireAddr (a : BitVec 4)
  /-- The wire byte 0x80: display off (R61, R62). -/
  | wireDispOff
  /-- The wire byte 0b1000_1ppp: display on with pulse width ppp (R61, R62). -/
  | wireDispOn (ppp : BitVec 3)
  /-- A content byte, a segment code with its overlay bit (R54, R63). -/
  | wirePayload (code : Byte)
  deriving DecidableEq, Repr

/-- The operand types of R66. -/
inductive OperandType where
  | u8
  | bit
  | i32
  | lvl
  | rat
  | u32
  | symSeq
  deriving DecidableEq, Repr

/-- A written operand, before its type is checked: a number (every operand type but `sym*` is a set of
rationals) or a symbol sequence, each symbol by its number. -/
inductive Operand where
  | num (q : Rat)
  | syms (l : List Nat)
  deriving DecidableEq, Repr

/-- A host operation as R65 encodes it: "an 8-bit opcode followed by a typed operand list". -/
structure HostCall where
  opcode : Byte
  operands : List Operand
  deriving DecidableEq, Repr

/-- What the block is given to run, in the three formats of the opcode table: a host operation (HOSTOP), a wire
command byte (WIRE_DATA, WIRE_ADDR, WIRE_DISP) or a content byte (SEGCODE). R63: a content byte "carries no class
bits", so its format is told by its place and not by its bits (assumption 2). -/
inductive HostInput where
  | call (c : HostCall)
  | command (b : Byte)
  | content (b : Byte)
  deriving DecidableEq, Repr

end Sys2Proof
end

