-- ==== Sys2Proof/Machine/State.lean ====
section
/-! DEFINITION. The state of the block, plain data: the tuple of R34, in the source's components, with what a host sees
of it (the wire trace and the results, R41), the inputs of the host and of the chip, and the configuration. -/

namespace Sys2Proof.Machine

/-- The direction of DIO (R18): `OUT` or `IN`. -/
inductive Dir where
  | out
  | inp
  deriving DecidableEq, Repr

/-- The line events of R11 and R72. A level is true for 1. A `HOLD` names the timing parameter it holds for (R73). -/
inductive Event where
  | clk (v : Bool)
  | dio (v : Bool)
  | dir (d : Dir)
  | hold (t : TimeParam)
  | sample (a : Bool)
  deriving DecidableEq, Repr

/-- The transport's state (R17 to R20), the wire trace, and the chip's side of the acknowledgement. -/
structure Bus where
  /-- R17 `clk_lvl`. -/
  clkLvl : Bool
  /-- R18 `dio_dir`. -/
  dioDir : Dir
  /-- R19 `dio_lvl`, the output latch. -/
  dioLvl : Bool
  /-- R20 `sess_open`. -/
  sessOpen : Bool
  /-- R41: the events of the wire trace so far, newest first. `Bus.trace` (Machine/Ops.lean) is the trace in order. -/
  emitted : List Event
  /-- The levels the chip is to drive at the coming samples, next first, where the environment fixes them (R77). -/
  acks : List Bool
  /-- The model's own counter of samples taken, the argument of the free value `Config.ackDraw` (assumption 4). -/
  samples : Nat
  deriving DecidableEq, Repr

/-- A buffer: (index, code) pairs with strictly rising indices and no blank code. A cell that is not listed is blank
(R22, assumption 9). -/
abbrev Memory := List Host.Cell

/-- The display buffer and overlay (R22 to R27). -/
structure Display where
  /-- R22 `buf`. -/
  buf : Memory
  /-- R23 `L`, the content length. -/
  len : Nat
  /-- R25 `colon`. -/
  colon : Bool
  /-- R26 `dp`. -/
  dp : Byte
  /-- R27 `W`, the window start and scroll index. -/
  win : Nat
  deriving DecidableEq, Repr

/-- R29: the animation kinds. -/
inductive AnimKind where
  | idle
  | blink
  | fadeOut
  | fadeIn
  | scroll
  deriving DecidableEq, Repr

/-- The animator's registers (R29 to R32). -/
structure Anim where
  /-- R29 `anim_kind`. -/
  kind : AnimKind
  /-- R30 `anim_interval`. -/
  interval : Millis
  /-- R31 `anim_last`. -/
  last : Millis
  /-- R32 `anim_saved`. -/
  saved : Level
  deriving DecidableEq, Repr

/-- R33 `fault`: no fault, or one of the three of R115. -/
inductive FaultCode where
  | none
  | f1SessionOpen
  | f2NoSession
  | f3FrameInSession
  deriving DecidableEq, Repr

/-- R115, column "recorded": the opcode of the operation that faulted, and the byte for SEND. -/
structure FaultRecord where
  opcode : Byte
  byte : Option Byte
  deriving DecidableEq, Repr

/-- What an operation returns to the host (R41, R67): nothing, an acknowledgement bit (true for 1, not acknowledged), a
code, the transmitted view, a level or a percent. -/
inductive Result where
  | none
  | ack (a : Bool)
  | code (c : Byte)
  | view (l : List Byte)
  | level (l : Level)
  | percent (q : Rat)
  deriving DecidableEq, Repr

/-- The state of the block and of its two neighbours' inputs. -/
structure State where
  /-- R7, R14: the configuration, fixed for a run. -/
  cfg : Config
  bus : Bus
  disp : Display
  /-- R28 `lvl`. -/
  lvl : Level
  anim : Anim
  /-- R33 `fault`. -/
  fault : FaultCode
  /-- R115: what the fault recorded. -/
  faultRecord : Option FaultRecord
  /-- R33 `refused`. -/
  refused : Bool
  /-- The environment asks for a reset before the next operation (R33, R117: "reset within the run"). The model's own
  input (assumption 11). -/
  resetReq : Bool
  /-- R6, R16: what the host has issued and the block has not yet run, next first. -/
  pending : List HostInput
  /-- R41: the results returned so far, oldest first. -/
  results : List Result
  deriving DecidableEq, Repr

/-- Why a run stops. -/
inductive Fault where
  /-- Raised by `step` alone, in a state whose sticky fault mark is set: R117, "it performs no further operation".
  Safe: the machine stops where the spec says the run ends. -/
  | runEnded (f : FaultCode)
  deriving DecidableEq, Repr

/-- Why an instruction has no meaning in this model. -/
inductive Refusal where
  /-- Raised by `exec` alone, for an instruction that has no meaning yet. No instruction is left so. Safe. -/
  | notModelled (mnemonic : String)
  deriving DecidableEq, Repr

/-- R127: the reset state under a configuration. Nothing is pending, nothing was emitted and nothing returned. -/
def State.resetWith (cfg : Config) : State where
  cfg := cfg
  bus :=
    { clkLvl := true, dioDir := .out, dioLvl := true, sessOpen := false, emitted := [], acks := [], samples := 0 }
  disp := { buf := [], len := 0, colon := false, dp := 0x00#8, win := 0 }
  lvl := cfg.resetLevel
  anim := { kind := .idle, interval := 0#32, last := 0#32, saved := 0#4 }
  fault := .none
  faultRecord := none
  refused := false
  resetReq := false
  pending := []
  results := []

/-- The machine right after reset, under TC0 (R8, assumption 7). -/
def State.reset : State := State.resetWith Config.tc0

end Sys2Proof.Machine
end

