-- ==== Sys2Proof/Machine/Ops.lean ====
section
/-! DEFINITION. The named operations over the buffer, the lines and the marks, which every meaning is written with. -/

namespace Sys2Proof.Machine

/-! ### The display buffer (R22, R35, R39) -/

/-- R22: what a cell that is not listed holds. -/
def blank : Byte := 0x00#8

/-- The canonical form: indices rise strictly and no blank code is listed. -/
def Memory.wf : Memory → Bool
  | [] => true
  | [c] => c.2 != blank
  | c :: d :: rest => c.2 != blank && decide (c.1 < d.1) && Memory.wf (d :: rest)

/-- `buf[i]` (R11). -/
def Memory.read (m : Memory) (i : Nat) : Byte :=
  match m with
  | [] => blank
  | c :: rest => if c.1 = i then c.2 else Memory.read rest i

/-- A cell in front of a buffer whose indices are all larger; a blank one is not listed. -/
def Memory.put (i : Nat) (v : Byte) (m : Memory) : Memory := if v = blank then m else (i, v) :: m

/-- `buf[i] <- v` (R11, R39), in canonical form. -/
def Memory.write (m : Memory) (i : Nat) (v : Byte) : Memory :=
  match m with
  | [] => Memory.put i v []
  | c :: rest =>
    if c.1 < i then c :: Memory.write rest i v
    else if c.1 = i then Memory.put i v rest
    else Memory.put i v (c :: rest)

/-- `buf[i + j] <- codes[j]` for each j, in order (the first loop of R84). -/
def Memory.writeAll (m : Memory) (i : Nat) : List Byte → Memory
  | [] => m
  | c :: rest => Memory.writeAll (m.write i c) (i + 1) rest

/-- `buf[i] <- v` for n cells from i on (the filling loops of R84 and R89). -/
def Memory.fill (m : Memory) (i : Nat) (v : Byte) : Nat → Memory
  | 0 => m
  | n + 1 => Memory.fill (m.write i v) (i + 1) v n

/-! ### Line events (R11, R72) -/

/-- R41: the wire trace so far, oldest event first. -/
def Bus.trace (b : Bus) : List Event := b.emitted.reverse

/-- `WireClk(v)`: drive CLK. -/
def Bus.wireClk (v : Bool) (b : Bus) : Bus := { b with clkLvl := v, emitted := .clk v :: b.emitted }

/-- `WireDio(v)`: write the DIO output latch. -/
def Bus.wireDio (v : Bool) (b : Bus) : Bus := { b with dioLvl := v, emitted := .dio v :: b.emitted }

/-- `DirDio(d)`: set the direction of DIO. -/
def Bus.dirDio (d : Dir) (b : Bus) : Bus := { b with dioDir := d, emitted := .dir d :: b.emitted }

/-- `Hold(t)`. -/
def Bus.hold (t : TimeParam) (b : Bus) : Bus := { b with emitted := .hold t :: b.emitted }

/-- R77: the level the chip drives at the next sample, under no law: the environment's, where it fixes one, else the
free value. -/
def Bus.nextAck (b : Bus) : Bool :=
  match b.acks with
  | a :: _ => a
  | [] => Config.ackDraw b.samples

/-- `SampleDio()` (R11, R77, R78): one sample, whose level is the draw. -/
def Bus.sampleDio (b : Bus) : Bool × Bus :=
  (b.nextAck,
   { b with acks := b.acks.tail, samples := b.samples + 1, emitted := .sample b.nextAck :: b.emitted })

/-- R72: the level on the DIO line that the block drives, and none while the chip drives it. -/
def Bus.dioLine (b : Bus) : Option Bool :=
  match b.dioDir with
  | .out => some b.dioLvl
  | .inp => none

/-! ### Start, stop and byte (R74 to R76) -/

/-- R74, after its session test. -/
def Bus.startFrame (b : Bus) : Bus :=
  { ((((((b.dirDio .out).wireDio true).wireClk true).hold .tBit).wireDio false).hold .tBit) with sessOpen := true }

/-- R75, after its session test. -/
def Bus.stopFrame (b : Bus) : Bus :=
  { ((((((((b.wireClk false).hold .tBit).wireDio false).hold .tBit).wireClk true).hold .tBit).wireDio
      true).hold .tFrame) with sessOpen := false }

/-- R76: one bit cell. -/
def Bus.bitCell (b : Bus) (v : Bool) : Bus :=
  ((((b.wireClk false).wireDio v).hold .tBit).wireClk true).hold .tBit

/-- R43: the bits of a byte in the order they are sent, least significant first. -/
def bitsLsbFirst (x : Byte) : List Bool :=
  [x.getLsbD 0, x.getLsbD 1, x.getLsbD 2, x.getLsbD 3, x.getLsbD 4, x.getLsbD 5, x.getLsbD 6, x.getLsbD 7]

/-- R76: the acknowledgement cell. On an acknowledgement (a = 0) the latch is written low while DIO is an input. -/
def Bus.ackCell (b : Bus) : Bool × Bus :=
  let r := (((b.wireClk false).wireDio true).wireClk true |>.dirDio .inp).sampleDio
  (r.1, (((if r.1 then r.2 else r.2.wireDio false).hold .tSettle).dirDio .out))

/-- R76, after its session test: eight bit cells, then the acknowledgement cell. -/
def Bus.shiftByte (x : Byte) (b : Bus) : Bool × Bus := ((bitsLsbFirst x).foldl Bus.bitCell b).ackCell

/-- SEND of each byte in order, ORing the acknowledgement bits into `s` (R99). -/
def Bus.shiftAll : List Byte → Bool × Bus → Bool × Bus
  | [], r => r
  | x :: rest, r => Bus.shiftAll rest (r.1 || (r.2.shiftByte x).1, (r.2.shiftByte x).2)

/-- One frame: BEGIN, a SEND for each byte, END (R64). -/
def Bus.frame (bytes : List Byte) (r : Bool × Bus) : Bool × Bus :=
  let q := Bus.shiftAll bytes (r.1, r.2.startFrame)
  (q.1, q.2.stopFrame)

/-- The frames of a refresh, in order (R99). -/
def Bus.frames : List (List Byte) → Bool × Bus → Bool × Bus
  | [], r => r
  | f :: rest, r => Bus.frames rest (Bus.frame f r)

/-! ### Completing, faulting and refusing -/

/-- An operation completes and returns its result to the host (R11 `return v`, R41). -/
def State.finish (s : State) (r : Result) : Host.Outcome State Fault Refusal :=
  .next { s with results := s.results ++ [r] }

/-- R117: raising a fault writes the sticky fault mark, with what R115 records, and no other state; no event is
emitted. The run stops at the next step (`State.fetch`). There is no return from it (R119). -/
def State.raiseFault (s : State) (f : FaultCode) (opcode : Byte) (byte : Option Byte) :
    Host.Outcome State Fault Refusal :=
  .next { s with fault := f, faultRecord := some ⟨opcode, byte⟩ }

/-- R116: a refusal "sets `refused <- 1` and changes nothing else". -/
def State.refuse (s : State) : State := { s with refused := true }

/-- R127, R129: reset inside a run. Every element has its reset value, no wire event is emitted, and the fault and
refusal marks stay (R33). What the host and the chip hold is not the block's: the trace, the results, the pending inputs
and the coming acknowledgement levels stay. -/
def State.resetInRun (s : State) : State :=
  { State.resetWith s.cfg with
    bus :=
      { (State.resetWith s.cfg).bus with emitted := s.bus.emitted, acks := s.bus.acks, samples := s.bus.samples }
    fault := s.fault
    faultRecord := s.faultRecord
    refused := s.refused
    pending := s.pending
    results := s.results }

end Sys2Proof.Machine
end

