-- ==== Sys2Proof/Machine/Flags.lean ====
section
/-! DEFINITION. The block has no condition codes. Its flags are the overlay bit, from the colon flag and the
decimal-point mask (R25, R26, R87, R91), and the condition that an animation's interval has elapsed (R100, R101). -/

namespace Sys2Proof.Machine

/-- R87: the overlay bit at physical position p. -/
def Display.overlayBit (d : Display) (p : Nat) : Byte := if d.colon || d.dp.getLsbD p then 0x80#8 else 0x00#8

/-- R91: the mask with the bits at and above `P_N` dropped. -/
def dpMask (pN : Nat) (m : Byte) : Byte := m &&& ((1#8 <<< pN) - 1#8)

/-- R100: the time since the last trigger, modulo 2^32. -/
def Anim.elapsed (a : Anim) (now : Millis) : Millis := now - a.last

/-- R101, R112: a tick is due when the stored interval has elapsed. -/
def Anim.due (a : Anim) (now : Millis) : Bool := !decide ((a.elapsed now).toNat < a.interval.toNat)

/-! ### The numbers the spec gives its names -/

/-- R18: `OUT` is 1 and `IN` is 0. -/
def Dir.bit : Dir → BitVec 1
  | .out => 1#1
  | .inp => 0#1

/-- R29: the encoding of `anim_kind`. -/
def AnimKind.code : AnimKind → BitVec 3
  | .idle => 0#3
  | .blink => 1#3
  | .fadeOut => 2#3
  | .fadeIn => 3#3
  | .scroll => 4#3

/-- R115: the number of a fault. -/
def FaultCode.number : FaultCode → Option Nat
  | .none => Option.none
  | .f1SessionOpen => some 1
  | .f2NoSession => some 2
  | .f3FrameInSession => some 3

end Sys2Proof.Machine
end

