-- ==== Sys2Proof/Machine/Operands.lean ====
section
/-! DEFINITION. What the operations compute from their operands and from the window: capacities and offsets (R83, R84),
decimal rendering (R85, R86), the transmitted view (R40, R87), levels and percents (R94, R96) and the bytes of a refresh
(R59 to R62, R99). -/

namespace Sys2Proof.Machine

/-! ### Content (R83 to R86) -/

/-- R83: the available capacity `C`. -/
def capacity (c : Config) (ovf : Bool) : Nat := if ovf then c.cacheCap else c.pN

/-- R56: the symbol of the decimal digit d. -/
def digitSym (d : Nat) : Byte := BitVec.ofNat 8 (0x30 + d)

/-- The digits of m in front of `acc`, most significant first; `fuel` bounds how many. -/
def decDigits : Nat → Nat → List Byte → List Byte
  | 0, m, acc => digitSym (m % 10) :: acc
  | fuel + 1, m, acc =>
    if m < 10 then digitSym m :: acc else decDigits fuel (m / 10) (digitSym (m % 10) :: acc)

/-- R85: `Dec(m)`. A number has no more decimal digits than binary ones, so `log2 m` steps reach the first. -/
def dec (m : Nat) : List Byte := decDigits (Nat.log2 m) m []

/-- R86: the rendering of a signed number, before alignment. -/
def renderInt (v : Int) : List Byte := (if v < 0 then [0x2D#8] else []) ++ dec v.natAbs

/-- R86: the symbols SETNUMBER stores: right-aligned in the room from the offset on, when they fit. -/
def numberSyms (c : Config) (v : Int) (off : Nat) (pad : Bool) : List Byte :=
  let s := renderInt v
  let room : Int := (c.pN : Int) - (off : Int)
  if (s.length : Int) < room then
    List.replicate (room - s.length).toNat (if pad && decide (0 ≤ v) then 0x30#8 else 0x20#8) ++ s
  else s

/-- R84: SETCONTENT on the buffer and the content length. -/
def Display.setContent (c : Config) (syms : List Byte) (off : Nat) (ovf pad : Bool) (d : Display) : Display :=
  let cap := capacity c ovf
  let o := min off cap
  let k := min syms.length (cap - o)
  let stored := d.buf.writeAll o ((syms.take k).map c.enc)
  let len := o + k
  let cleared := stored.fill len blank (c.cacheCap - len)
  if pad && decide (len < c.pN) then
    { d with buf := cleared.fill len zeroCode (c.pN - len), len := c.pN }
  else { d with buf := cleared, len := len }

/-- R89: CLEAR. -/
def Display.clear (c : Config) (d : Display) : Display :=
  { d with buf := d.buf.fill 0 blank c.cacheCap, len := 0, colon := false, dp := 0x00#8 }

/-! ### The window (R40, R87) -/

/-- R40: `WinCode(p)`. -/
def Display.winCode (c : Config) (d : Display) (p : Nat) : Byte :=
  if d.win + p < c.cacheCap then d.buf.read (d.win + p) else blank

/-- R87: `TxCode(p)`. -/
def Display.txCode (c : Config) (d : Display) (p : Nat) : Byte := d.winCode c p ||| d.overlayBit p

/-- R87: `TxView()`. -/
def Display.txView (c : Config) (d : Display) : List Byte := (List.range c.pN).map (d.txCode c)

/-! ### Levels and percents (R94 to R96) -/

/-- R94: `FromLevel(n)`. -/
def fromLevelValue (c : Config) (n : Int) : Level := if 0 ≤ n ∧ n ≤ 8 then BitVec.ofInt 4 n else c.defaultLevel

/-- The levels in rising order (R92). -/
def allLevels : List (Fin 9) := [0, 1, 2, 3, 4, 5, 6, 7, 8]

/-- R96: the least k of 0..8 whose percent is at least p, and 8 if there is none. -/
def fromPercentIndex (c : Config) (p : Rat) : Fin 9 := (allLevels.find? (fun k => decide (p ≤ c.pct[k]))).getD 8

/-- R96: `FromPercent(p)`. -/
def fromPercentValue (c : Config) (p : Rat) : Level := BitVec.ofNat 4 (fromPercentIndex c p).val

/-! ### The bytes of a refresh (R59 to R62, R99) -/

/-- R62: `DispCtrl(l)`. -/
def dispCtrl (c : Config) (l : Level) : Byte :=
  if l = 0#4 then c.cmdDisp else c.cmdDisp ||| c.dispOn ||| (l - 1#4).zeroExtend 8

/-- R60: the address command for position p. -/
def addrCommand (c : Config) (p : Nat) : Byte := c.cmdAddr ||| BitVec.ofNat 8 p

/-- The frames of fixed addressing: one for each position from p on (R99). -/
def fixedFrames (c : Config) (p : Nat) : List Byte → List (List Byte)
  | [] => []
  | code :: rest => [addrCommand c p, code] :: fixedFrames c (p + 1) rest

/-- R99: the frames of a refresh, in order, from the transmitted view and the level. -/
def refreshFrames (c : Config) (tx : List Byte) (l : Level) : List (List Byte) :=
  match c.addrMode with
  | .auto => [[c.cmdDataAuto], addrCommand c 0 :: tx, [dispCtrl c l]]
  | .fixed => [c.cmdDataFixed] :: fixedFrames c 0 tx ++ [[dispCtrl c l]]

/-- R99: `RefreshBody()`: the acknowledgement status and the lines after it. The view and the level are those at
entry. -/
def State.refreshBody (s : State) : Bool × Bus :=
  Bus.frames (refreshFrames s.cfg (s.disp.txView s.cfg) s.lvl) (false, s.bus)

end Sys2Proof.Machine
end

