-- ==== Sys2Proof/Machine/Animator.lean ====
section
/-! DEFINITION. The meanings of REFRESH, the four animations and RESETANIM (43_animator.md). -/

namespace Sys2Proof.Machine

/-- R99: REFRESH. -/
def execRefresh (s : State) : Host.Outcome State Fault Refusal :=
  if s.bus.sessOpen then s.raiseFault .f3FrameInSession 0x30#8 none
  else State.finish { s with bus := s.refreshBody.2 } (.ack s.refreshBody.1)

/-! ### Steps (R103 to R106) -/

/-- R103: the level after a blink step: the saved one from off, and off from any other. -/
def blinkLevel (l saved : Level) : Level := if l = 0#4 then saved else 0#4

/-- R103: the saved level after a blink step: the level the step turns off. -/
def blinkSaved (l saved : Level) : Level := if l = 0#4 then saved else l

/-- R103: the blink step. -/
def State.stepBlink (s : State) : State :=
  { s with lvl := blinkLevel s.lvl s.anim.saved, anim := { s.anim with saved := blinkSaved s.lvl s.anim.saved } }

/-- R104: the level after a fade-out step: one lower, not below the floor. -/
def fadeOutLevel (l : Level) : Level := if fadeFloor.toNat < l.toNat then l - 1#4 else l

/-- R104: the fade-out step. A fade that has reached its bound ends. -/
def State.stepFadeOut (s : State) : State :=
  { s with
    lvl := fadeOutLevel s.lvl
    anim :=
      { s.anim with kind := if (fadeOutLevel s.lvl).toNat ≤ fadeFloor.toNat then .idle else s.anim.kind } }

/-- R105: the level after a fade-in step: one higher, not above 8. -/
def fadeInLevel (l : Level) : Level := if l.toNat < topLevel.toNat then l + 1#4 else l

/-- R105: the fade-in step. A fade that has reached its bound ends. -/
def State.stepFadeIn (s : State) : State :=
  { s with
    lvl := fadeInLevel s.lvl
    anim := { s.anim with kind := if fadeInLevel s.lvl = topLevel then .idle else s.anim.kind } }

/-- R106: the scroll step. An index past the content length ends the scroll. -/
def State.stepScroll (s : State) : State :=
  { s with
    disp := { s.disp with win := if s.disp.len < s.disp.win + 1 then 0 else s.disp.win + 1 }
    anim := { s.anim with kind := if s.disp.len < s.disp.win + 1 then .idle else s.anim.kind } }

/-! ### Dispatch (R101) -/

/-- R101: an animation's start. -/
def State.startAnim (s : State) (k : AnimKind) (d now : Millis) : State :=
  { s with
    anim := { kind := k, interval := d, last := now, saved := s.lvl }
    disp := { s.disp with win := 0 } }

/-- R101: the trigger time of a due tick. -/
def State.trigger (s : State) (now : Millis) : State := { s with anim := { s.anim with last := now } }

/-- The refresh that ends a due tick: it sends the state the step left (R101). -/
def State.finishStep (s : State) : Host.Outcome State Fault Refusal :=
  State.finish { s with bus := s.refreshBody.2 } (.ack s.refreshBody.1)

/-- R101: what every animation operation does with its call: start, wait for its interval, or step. `next` is the state
that R101's trigger and the kind's step leave of s. -/
def State.animate (s : State) (k : AnimKind) (opcode : Byte) (d now : Millis) (next : State) :
    Host.Outcome State Fault Refusal :=
  if s.anim.kind ≠ k then State.finish (s.startAnim k d now) .none
  else if s.anim.due now = false then s.finish .none
  else if s.bus.sessOpen then s.raiseFault .f3FrameInSession opcode none
  else next.finishStep

/-- R107: BLINK. -/
def execBlink (d now : Millis) (s : State) : Host.Outcome State Fault Refusal :=
  s.animate .blink 0x40#8 d now (s.trigger now).stepBlink

/-- R108: FADEOUT. -/
def execFadeOut (d now : Millis) (s : State) : Host.Outcome State Fault Refusal :=
  s.animate .fadeOut 0x41#8 d now (s.trigger now).stepFadeOut

/-- R109: FADEIN. -/
def execFadeIn (d now : Millis) (s : State) : Host.Outcome State Fault Refusal :=
  s.animate .fadeIn 0x42#8 d now (s.trigger now).stepFadeIn

/-- R110: SCROLL. -/
def execScroll (d now : Millis) (s : State) : Host.Outcome State Fault Refusal :=
  s.animate .scroll 0x43#8 d now (s.trigger now).stepScroll

/-- R111: RESETANIM. -/
def execResetAnim (s : State) : Host.Outcome State Fault Refusal :=
  State.finish
    { s with
      anim := { kind := .idle, interval := 0#32, last := 0#32, saved := 0#4 }
      disp := { s.disp with win := 0 } } .none

end Sys2Proof.Machine
end

