-- ==== Sys2Proof/Machine/Brightness.lean ====
section
/-! DEFINITION. The meanings of the brightness operations (42_brightness.md). None emits a wire event. -/

namespace Sys2Proof.Machine

/-- R94: FROMLEVEL. -/
def execFromLevel (n : Int32Word) (s : State) : Host.Outcome State Fault Refusal :=
  s.finish (.level (fromLevelValue s.cfg n.toInt))

/-- R95: TOPERCENT. -/
def execToPercent (l : Fin 9) (s : State) : Host.Outcome State Fault Refusal := s.finish (.percent s.cfg.pct[l])

/-- R96: FROMPERCENT. -/
def execFromPercent (p : Rat) (s : State) : Host.Outcome State Fault Refusal :=
  s.finish (.level (fromPercentValue s.cfg p))

/-- R97: SETLEVEL. -/
def execSetLevel (n : Int32Word) (s : State) : Host.Outcome State Fault Refusal :=
  State.finish { s with lvl := fromLevelValue s.cfg n.toInt } .none

/-- R98: SETPERCENT. -/
def execSetPercent (p : Rat) (s : State) : Host.Outcome State Fault Refusal :=
  State.finish { s with lvl := fromPercentValue s.cfg p } .none

end Sys2Proof.Machine
end

