-- ==== Sys2Proof/Machine/Buffer.lean ====
section
/-! DEFINITION. The meanings of the encoder and display buffer operations (41_encoder_buffer.md). None emits a wire
event. -/

namespace Sys2Proof.Machine

/-- R82: ENCODE. -/
def execEncode (sym : Byte) (s : State) : Host.Outcome State Fault Refusal := s.finish (.code (s.cfg.enc sym))

/-- R84: SETCONTENT. -/
def execSetContent (syms : List Byte) (off : Byte) (ovf pad : Bool) (s : State) : Host.Outcome State Fault Refusal :=
  State.finish { s with disp := s.disp.setContent s.cfg syms off.toNat ovf pad } .none

/-- R86: SETNUMBER, which stores its symbols by R84 without R84's padding. -/
def execSetNumber (v : Int32Word) (off : Byte) (ovf pad : Bool) (s : State) : Host.Outcome State Fault Refusal :=
  State.finish
    { s with disp := s.disp.setContent s.cfg (numberSyms s.cfg v.toInt off.toNat pad) off.toNat ovf false } .none

/-- R88: OVERLAY. -/
def execOverlay (s : State) : Host.Outcome State Fault Refusal := s.finish (.view (s.disp.txView s.cfg))

/-- R89: CLEAR. -/
def execClear (s : State) : Host.Outcome State Fault Refusal :=
  State.finish { s with disp := s.disp.clear s.cfg } .none

/-- R90: SETCOLON. -/
def execSetColon (c : Bool) (s : State) : Host.Outcome State Fault Refusal :=
  State.finish { s with disp := { s.disp with colon := c } } .none

/-- R91: SETDP. -/
def execSetDp (m : Byte) (s : State) : Host.Outcome State Fault Refusal :=
  State.finish { s with disp := { s.disp with dp := dpMask s.cfg.pN m } } .none

end Sys2Proof.Machine
end

