-- ==== Sys2Proof/Machine/Transport.lean ====
section
/-! DEFINITION. The meanings of BEGIN, END and SEND (40_transport.md) and of the wire byte classes (30_encoding.md
section 3). -/

namespace Sys2Proof.Machine

/-- R74: BEGIN. -/
def execBegin (s : State) : Host.Outcome State Fault Refusal :=
  if s.bus.sessOpen then s.raiseFault .f1SessionOpen 0x01#8 none
  else State.finish { s with bus := s.bus.startFrame } .none

/-- R75: END. -/
def execEnd (s : State) : Host.Outcome State Fault Refusal :=
  if s.bus.sessOpen then State.finish { s with bus := s.bus.stopFrame } .none
  else s.raiseFault .f2NoSession 0x02#8 none

/-- R76: shifting one byte out in the open session and reading its acknowledgement. -/
def State.sendByte (s : State) (b : Byte) : Host.Outcome State Fault Refusal :=
  if s.bus.sessOpen then
    State.finish { s with bus := (s.bus.shiftByte b).2 } (.ack (s.bus.shiftByte b).1)
  else s.raiseFault .f2NoSession 0x03#8 (some b)

/-- R76: SEND. -/
def execSend (b : Byte) (s : State) : Host.Outcome State Fault Refusal := s.sendByte b

/-- R59: the data command byte for automatic increment, put on the wire as SEND puts it (assumption 2). -/
def execWireDataAuto (s : State) : Host.Outcome State Fault Refusal := s.sendByte 0b01000000#8

/-- R59: the data command byte for fixed addressing, put on the wire. -/
def execWireDataFixed (s : State) : Host.Outcome State Fault Refusal := s.sendByte 0b01000100#8

/-- R60: an address command byte, put on the wire. -/
def execWireAddr (a : BitVec 4) (s : State) : Host.Outcome State Fault Refusal := s.sendByte (0b1100#4 ++ a)

/-- R61, R62: the display-off byte, put on the wire. -/
def execWireDispOff (s : State) : Host.Outcome State Fault Refusal := s.sendByte 0b10000000#8

/-- R61, R62: a display-on byte, put on the wire. -/
def execWireDispOn (ppp : BitVec 3) (s : State) : Host.Outcome State Fault Refusal := s.sendByte (0b10001#5 ++ ppp)

/-- R63: a content byte, put on the wire. -/
def execWirePayload (code : Byte) (s : State) : Host.Outcome State Fault Refusal := s.sendByte code

end Sys2Proof.Machine
end

