-- ==== Sys2Proof/Machine/Dispatch.lean ====
section
/-! DEFINITION. One arm for each instruction, each one direct call of its meaning. -/

namespace Sys2Proof.Machine

def exec (i : Instr) (s : State) : Host.Outcome State Fault Refusal :=
  match i with
  -- transport
  | .beginFrame => Sys2Proof.Machine.execBegin s
  | .endFrame => Sys2Proof.Machine.execEnd s
  | .send b => Sys2Proof.Machine.execSend b s
  -- encoder and display buffer
  | .encodeSym sym => Sys2Proof.Machine.execEncode sym s
  | .setContent syms off ovf pad => Sys2Proof.Machine.execSetContent syms off ovf pad s
  | .setNumber v off ovf pad => Sys2Proof.Machine.execSetNumber v off ovf pad s
  | .overlay => Sys2Proof.Machine.execOverlay s
  | .clear => Sys2Proof.Machine.execClear s
  | .setColon c => Sys2Proof.Machine.execSetColon c s
  | .setDp m => Sys2Proof.Machine.execSetDp m s
  -- brightness
  | .fromLevel n => Sys2Proof.Machine.execFromLevel n s
  | .toPercent l => Sys2Proof.Machine.execToPercent l s
  | .fromPercent p => Sys2Proof.Machine.execFromPercent p s
  | .setLevel n => Sys2Proof.Machine.execSetLevel n s
  | .setPercent p => Sys2Proof.Machine.execSetPercent p s
  -- refresh and animator
  | .refresh => Sys2Proof.Machine.execRefresh s
  | .blink d now => Sys2Proof.Machine.execBlink d now s
  | .fadeOut d now => Sys2Proof.Machine.execFadeOut d now s
  | .fadeIn d now => Sys2Proof.Machine.execFadeIn d now s
  | .scroll d now => Sys2Proof.Machine.execScroll d now s
  | .resetAnim => Sys2Proof.Machine.execResetAnim s
  -- wire byte classes
  | .wireDataAuto => Sys2Proof.Machine.execWireDataAuto s
  | .wireDataFixed => Sys2Proof.Machine.execWireDataFixed s
  | .wireAddr a => Sys2Proof.Machine.execWireAddr a s
  | .wireDispOff => Sys2Proof.Machine.execWireDispOff s
  | .wireDispOn ppp => Sys2Proof.Machine.execWireDispOn ppp s
  | .wirePayload code => Sys2Proof.Machine.execWirePayload code s

end Sys2Proof.Machine
end

