-- ==== Sys2Proof/WellFormed.lean ====
section
/-! DEFINITION. Which instructions are well formed: the one bound of R66 that the types of the constructors do not
already carry. -/

namespace Sys2Proof

/-- R66: a `sym*` operand has "length 0..255". Every other operand's type is its constructor's. -/
def Instr.wellFormed : Instr → Bool
  | .setContent syms _ _ _ => decide (syms.length ≤ 255)
  | .beginFrame | .endFrame | .send _ | .encodeSym _ | .setNumber _ _ _ _ | .overlay | .clear => true
  | .setColon _ | .setDp _ | .fromLevel _ | .toPercent _ | .fromPercent _ | .setLevel _ => true
  | .setPercent _ | .refresh | .blink _ _ | .fadeOut _ _ | .fadeIn _ _ | .scroll _ _ => true
  | .resetAnim | .wireDataAuto | .wireDataFixed | .wireAddr _ | .wireDispOff => true
  | .wireDispOn _ | .wirePayload _ => true

end Sys2Proof
end

