-- ==== Sys2Proof/Decode.lean ====
section
/-! DEFINITION. The decoder, total on every host call and every wire byte, rejecting by name (R65 to R68, R116); the
encoder, from the same tables; and the opcode table's rows as data. -/

namespace Sys2Proof

/-- Why a decoder refuses (R68, R116; the wire classes of R59 to R62). -/
inductive DecodeError where
  /-- R68: an opcode that R67 does not list. -/
  | illegalOpcode
  /-- R65: the opcode fixes the length of the operand list, and this list has another. -/
  | operandCount
  /-- R66, R116: an operand outside its type. -/
  | operandOutsideType
  /-- A byte at a command place that is of no wire row of the opcode table. DESIGN CHOICE (assumption 2): some such bytes
  fit a format of R59 or R61. -/
  | notACommandByte
  deriving DecidableEq, Repr

/-! ### Operands (R66) -/

/-- The written form of an integer operand. -/
def Operand.ofInt (n : Int) : Operand := .num (Rat.ofInt n)

/-- The integer that an operand is, if it is one and lies in `lo ≤ n < hi`. -/
def Operand.intIn (lo hi : Int) : Operand → Option Int
  | .num q => if q.den = 1 ∧ lo ≤ q.num ∧ q.num < hi then some q.num else none
  | .syms _ => none

/-- `u8`: 0..255. -/
def Operand.asU8 (o : Operand) : Option Byte := (o.intIn 0 256).map (BitVec.ofInt 8)

/-- `bit`: 0, 1. -/
def Operand.asBit (o : Operand) : Option Bool := (o.intIn 0 2).map (fun n => decide (n = 1))

/-- `i32`: -2^31 .. 2^31-1. -/
def Operand.asI32 (o : Operand) : Option Int32Word :=
  (o.intIn (-2147483648) 2147483648).map (BitVec.ofInt 32)

/-- `u32`: 0 .. 2^32-1. -/
def Operand.asU32 (o : Operand) : Option Millis := (o.intIn 0 4294967296).map (BitVec.ofInt 32)

/-- `lvl`: 0..8. -/
def Operand.asLvl (o : Operand) : Option (Fin 9) := (o.intIn 0 9).map (fun n => Fin.ofNat 9 n.toNat)

/-- `rat`: any rational number. -/
def Operand.asRat : Operand → Option Rat
  | .num q => some q
  | .syms _ => none

/-- `sym*`: at most 255 symbols, each a `u8`. -/
def Operand.asSyms : Operand → Option (List Byte)
  | .num _ => none
  | .syms l => if l.length ≤ 255 ∧ ∀ n ∈ l, n < 256 then some (l.map (BitVec.ofNat 8)) else none

/-- The written form of a bit. -/
def Operand.ofBit (b : Bool) : Operand := .ofInt (if b then 1 else 0)

/-- The written form of an unsigned word. -/
def Operand.ofUnsigned {w : Nat} (x : BitVec w) : Operand := .ofInt x.toNat

/-- The written form of a symbol sequence. -/
def Operand.ofSyms (l : List Byte) : Operand := .syms (l.map BitVec.toNat)

/-- The operand of a type whose bits are all 0: the number 0, or no symbols. -/
def OperandType.zero : OperandType → Operand
  | .u8 | .bit | .i32 | .lvl | .rat | .u32 => .ofInt 0
  | .symSeq => .syms []

/-! ### Host operations (R67, R68) -/

/-- R67: the operand types an opcode fixes, and none for an opcode that R67 does not list. -/
def operandTypes (opcode : Byte) : Option (List OperandType) :=
  match opcode.toNat with
  | 0x01 => some []
  | 0x02 => some []
  | 0x03 => some [.u8]
  | 0x10 => some [.u8]
  | 0x11 => some [.symSeq, .u8, .bit, .bit]
  | 0x12 => some [.i32, .u8, .bit, .bit]
  | 0x13 => some []
  | 0x14 => some []
  | 0x15 => some [.bit]
  | 0x16 => some [.u8]
  | 0x20 => some [.i32]
  | 0x21 => some [.lvl]
  | 0x22 => some [.rat]
  | 0x23 => some [.i32]
  | 0x24 => some [.rat]
  | 0x30 => some []
  | 0x40 => some [.u32, .u32]
  | 0x41 => some [.u32, .u32]
  | 0x42 => some [.u32, .u32]
  | 0x43 => some [.u32, .u32]
  | 0x44 => some []
  | _ => none

/-- R67: the instruction of a listed opcode, when every operand lies in its type. -/
def hostInstr (opcode : Byte) (operands : List Operand) : Option Instr :=
  match opcode.toNat, operands with
  | 0x01, [] => some .beginFrame
  | 0x02, [] => some .endFrame
  | 0x03, [b] => do return .send (← b.asU8)
  | 0x10, [s] => do return .encodeSym (← s.asU8)
  | 0x11, [l, o, v, p] => do return .setContent (← l.asSyms) (← o.asU8) (← v.asBit) (← p.asBit)
  | 0x12, [n, o, v, p] => do return .setNumber (← n.asI32) (← o.asU8) (← v.asBit) (← p.asBit)
  | 0x13, [] => some .overlay
  | 0x14, [] => some .clear
  | 0x15, [c] => do return .setColon (← c.asBit)
  | 0x16, [m] => do return .setDp (← m.asU8)
  | 0x20, [n] => do return .fromLevel (← n.asI32)
  | 0x21, [l] => do return .toPercent (← l.asLvl)
  | 0x22, [p] => do return .fromPercent (← p.asRat)
  | 0x23, [n] => do return .setLevel (← n.asI32)
  | 0x24, [p] => do return .setPercent (← p.asRat)
  | 0x30, [] => some .refresh
  | 0x40, [d, t] => do return .blink (← d.asU32) (← t.asU32)
  | 0x41, [d, t] => do return .fadeOut (← d.asU32) (← t.asU32)
  | 0x42, [d, t] => do return .fadeIn (← d.asU32) (← t.asU32)
  | 0x43, [d, t] => do return .scroll (← d.asU32) (← t.asU32)
  | 0x44, [] => some .resetAnim
  | _, _ => none

/-- R65, R68, R116: the decoder of host operations. It selects the operation by the opcode alone. -/
def decodeCall (c : HostCall) : Except DecodeError Instr :=
  match operandTypes c.opcode with
  | none => .error .illegalOpcode
  | some types =>
    if c.operands.length = types.length then
      match hostInstr c.opcode c.operands with
      | some i => .ok i
      | none => .error .operandOutsideType
    else .error .operandCount

/-! ### Wire bytes (R59 to R63) -/

/-- R59 to R62: the class of a wire command byte. DESIGN CHOICE (assumption 2): a byte that fits a format but has field
values the block never sends is of no class, and is refused at a command place: 0x81..0x87 (R61 with S = 0 and ppp not 0)
and the bytes of R59 with T or R set, 0x42, 0x46, 0x48, 0x4A, 0x4C and 0x4E. SEND puts any of them on the wire. -/
def decodeCommand (b : Byte) : Except DecodeError Instr :=
  if b = 0x40#8 then .ok .wireDataAuto
  else if b = 0x44#8 then .ok .wireDataFixed
  else if b.extractLsb' 4 4 = 0b1100#4 then .ok (.wireAddr (b.extractLsb' 0 4))
  else if b = 0x80#8 then .ok .wireDispOff
  else if b.extractLsb' 3 5 = 0b10001#5 then .ok (.wireDispOn (b.extractLsb' 0 3))
  else .error .notACommandByte

/-- The decoder, by the format of what it is given. R63: any byte at a content place is content. -/
def decode : HostInput → Except DecodeError Instr
  | .call c => decodeCall c
  | .command b => decodeCommand b
  | .content b => .ok (.wirePayload b)

/-! ### The encoder -/

/-- The bits of the wire byte an instruction of a wire class stands for (R59 to R63). -/
def wireDataAutoByte : Byte := 0b01000000#8
/-- R59 with M = 1. -/
def wireDataFixedByte : Byte := 0b01000100#8
/-- R60: `0b1100_aaaa`. -/
def wireAddrByte (a : BitVec 4) : Byte := 0b1100#4 ++ a
/-- R61 with S = 0 and ppp = 0. -/
def wireDispOffByte : Byte := 0b10000000#8
/-- R61 with S = 1: `0b1000_1ppp`. -/
def wireDispOnByte (ppp : BitVec 3) : Byte := 0b10001#5 ++ ppp

/-- The encoded form of an instruction: R67's opcode with its operand list, or the wire byte of R59 to R63. -/
def encode : Instr → HostInput
  | .beginFrame => .call ⟨0x01#8, []⟩
  | .endFrame => .call ⟨0x02#8, []⟩
  | .send b => .call ⟨0x03#8, [.ofUnsigned b]⟩
  | .encodeSym s => .call ⟨0x10#8, [.ofUnsigned s]⟩
  | .setContent l o v p => .call ⟨0x11#8, [.ofSyms l, .ofUnsigned o, .ofBit v, .ofBit p]⟩
  | .setNumber n o v p => .call ⟨0x12#8, [.ofInt n.toInt, .ofUnsigned o, .ofBit v, .ofBit p]⟩
  | .overlay => .call ⟨0x13#8, []⟩
  | .clear => .call ⟨0x14#8, []⟩
  | .setColon c => .call ⟨0x15#8, [.ofBit c]⟩
  | .setDp m => .call ⟨0x16#8, [.ofUnsigned m]⟩
  | .fromLevel n => .call ⟨0x20#8, [.ofInt n.toInt]⟩
  | .toPercent l => .call ⟨0x21#8, [.ofInt l.val]⟩
  | .fromPercent p => .call ⟨0x22#8, [.num p]⟩
  | .setLevel n => .call ⟨0x23#8, [.ofInt n.toInt]⟩
  | .setPercent p => .call ⟨0x24#8, [.num p]⟩
  | .refresh => .call ⟨0x30#8, []⟩
  | .blink d t => .call ⟨0x40#8, [.ofUnsigned d, .ofUnsigned t]⟩
  | .fadeOut d t => .call ⟨0x41#8, [.ofUnsigned d, .ofUnsigned t]⟩
  | .fadeIn d t => .call ⟨0x42#8, [.ofUnsigned d, .ofUnsigned t]⟩
  | .scroll d t => .call ⟨0x43#8, [.ofUnsigned d, .ofUnsigned t]⟩
  | .resetAnim => .call ⟨0x44#8, []⟩
  | .wireDataAuto => .command wireDataAutoByte
  | .wireDataFixed => .command wireDataFixedByte
  | .wireAddr a => .command (wireAddrByte a)
  | .wireDispOff => .command wireDispOffByte
  | .wireDispOn ppp => .command (wireDispOnByte ppp)
  | .wirePayload c => .content c

/-! ### The opcode table's words -/

/-- The input that a word of the opcode table's numbering stands for. A row's word is one byte, and operands have no
bits there, so they are 0. A byte that is a host opcode is that operation. A byte that is none is a wire command byte
where it is in a class of R59 to R62, and a content byte otherwise: the order in which the table lists its formats
(assumption 3). A word that does not fit a byte is no encoding, and stands for the illegal opcode 0x00. -/
def tableInput (_nbits w : Nat) : HostInput :=
  if w < 256 then
    let b := BitVec.ofNat 8 w
    match operandTypes b with
    | some types => .call ⟨b, types.map OperandType.zero⟩
    | none =>
      match decodeCommand b with
      | .ok _ => .command b
      | .error _ => .content b
  else .call ⟨0x00#8, []⟩

/-- The instruction the decoder reads from a word of the opcode table. -/
def decodeTableWord (nbits w : Nat) : Option Instr :=
  match decode (tableInput nbits w) with
  | .ok i => some i
  | .error _ => none

/-- One row of spec/opcode_table.json: its format, and the bits it fixes. -/
structure TableRow where
  mnemonic : String
  format : String
  matchBits : Byte
  mask : Byte
  deriving DecidableEq, Repr

/-- A byte is of a row when it has the bits the row fixes. -/
def TableRow.covers (r : TableRow) (b : Byte) : Bool := b &&& r.mask == r.matchBits

/-- The rows of format HOSTOP. -/
def hostRows : List TableRow :=
  [⟨"BEGIN", "HOSTOP", 0x01#8, 0xFF#8⟩, ⟨"END", "HOSTOP", 0x02#8, 0xFF#8⟩,
   ⟨"SEND", "HOSTOP", 0x03#8, 0xFF#8⟩, ⟨"ENCODE", "HOSTOP", 0x10#8, 0xFF#8⟩,
   ⟨"SETCONTENT", "HOSTOP", 0x11#8, 0xFF#8⟩, ⟨"SETNUMBER", "HOSTOP", 0x12#8, 0xFF#8⟩,
   ⟨"OVERLAY", "HOSTOP", 0x13#8, 0xFF#8⟩, ⟨"CLEAR", "HOSTOP", 0x14#8, 0xFF#8⟩,
   ⟨"SETCOLON", "HOSTOP", 0x15#8, 0xFF#8⟩, ⟨"SETDP", "HOSTOP", 0x16#8, 0xFF#8⟩]
  ++ [⟨"FROMLEVEL", "HOSTOP", 0x20#8, 0xFF#8⟩, ⟨"TOPERCENT", "HOSTOP", 0x21#8, 0xFF#8⟩,
   ⟨"FROMPERCENT", "HOSTOP", 0x22#8, 0xFF#8⟩, ⟨"SETLEVEL", "HOSTOP", 0x23#8, 0xFF#8⟩,
   ⟨"SETPERCENT", "HOSTOP", 0x24#8, 0xFF#8⟩, ⟨"REFRESH", "HOSTOP", 0x30#8, 0xFF#8⟩,
   ⟨"BLINK", "HOSTOP", 0x40#8, 0xFF#8⟩, ⟨"FADEOUT", "HOSTOP", 0x41#8, 0xFF#8⟩,
   ⟨"FADEIN", "HOSTOP", 0x42#8, 0xFF#8⟩, ⟨"SCROLL", "HOSTOP", 0x43#8, 0xFF#8⟩,
   ⟨"RESETANIM", "HOSTOP", 0x44#8, 0xFF#8⟩]

/-- The rows of the wire command formats. -/
def wireRows : List TableRow :=
  [⟨"WIRE_DATA_AUTO", "WIRE_DATA", 0x40#8, 0xFF#8⟩, ⟨"WIRE_DATA_FIXED", "WIRE_DATA", 0x44#8, 0xFF#8⟩,
   ⟨"WIRE_ADDR", "WIRE_ADDR", 0xC0#8, 0xF0#8⟩, ⟨"WIRE_DISP_OFF", "WIRE_DISP", 0x80#8, 0xFF#8⟩,
   ⟨"WIRE_DISP_ON", "WIRE_DISP", 0x88#8, 0xF8#8⟩]

/-- The row of format SEGCODE. -/
def segRows : List TableRow := [⟨"WIRE_PAYLOAD", "SEGCODE", 0x00#8, 0x00#8⟩]

/-- The name of an instruction's row in spec/opcode_table.json. -/
def Instr.mnemonic : Instr → String
  | .beginFrame => "BEGIN"
  | .endFrame => "END"
  | .send _ => "SEND"
  | .encodeSym _ => "ENCODE"
  | .setContent _ _ _ _ => "SETCONTENT"
  | .setNumber _ _ _ _ => "SETNUMBER"
  | .overlay => "OVERLAY"
  | .clear => "CLEAR"
  | .setColon _ => "SETCOLON"
  | .setDp _ => "SETDP"
  | .fromLevel _ => "FROMLEVEL"
  | .toPercent _ => "TOPERCENT"
  | .fromPercent _ => "FROMPERCENT"
  | .setLevel _ => "SETLEVEL"
  | .setPercent _ => "SETPERCENT"
  | .refresh => "REFRESH"
  | .blink _ _ => "BLINK"
  | .fadeOut _ _ => "FADEOUT"
  | .fadeIn _ _ => "FADEIN"
  | .scroll _ _ => "SCROLL"
  | .resetAnim => "RESETANIM"
  | .wireDataAuto => "WIRE_DATA_AUTO"
  | .wireDataFixed => "WIRE_DATA_FIXED"
  | .wireAddr _ => "WIRE_ADDR"
  | .wireDispOff => "WIRE_DISP_OFF"
  | .wireDispOn _ => "WIRE_DISP_ON"
  | .wirePayload _ => "WIRE_PAYLOAD"

/-- The rows of the format an input has. -/
def HostInput.rows : HostInput → List TableRow
  | .call _ => hostRows
  | .command _ => wireRows
  | .content _ => segRows

/-- The byte of an input that the table's rows fix bits of. -/
def HostInput.tableByte : HostInput → Byte
  | .call c => c.opcode
  | .command b => b
  | .content b => b

end Sys2Proof
end

