-- ==== Sys2Proof/Machine/Fetch.lean ====
section
/-! DEFINITION. What the block does with what the host has issued, before an operation runs (R16, R116, R117). -/

namespace Sys2Proof.Machine

/-- What a step finds to do. -/
inductive Fetched where
  /-- R117: the fault mark is set and the run has ended. -/
  | ended (f : FaultCode)
  /-- R116: the configuration or the encoding is refused; the state with the mark set. -/
  | refusedTo (s : State)
  /-- R127: a reset inside the run; the state after it. -/
  | resetTo (s : State)
  /-- R16: nothing is pending, and the block waits. -/
  | waiting
  /-- An operation to run, in the state from which it has been taken. -/
  | run (i : Instr) (s : State)
  deriving DecidableEq, Repr

/-- R116, R117, R118, R127: a faulted block performs nothing; a reset that is asked for comes next; an illegal
configuration or an input the decoder refuses is marked before any other effect; else the next input's operation is to
run. DESIGN CHOICE (assumptions 11 and 13): a reset that is asked for is taken before the configuration is looked at, so
the step that resets refuses nothing. -/
def State.fetch (s : State) : Fetched :=
  if s.fault ≠ .none then .ended s.fault
  else if s.resetReq then .resetTo s.resetInRun
  else if s.cfg.legal = false then .refusedTo s.refuse
  else
    match s.pending with
    | [] => .waiting
    | input :: rest =>
      match decode input with
      | .error _ => .refusedTo { s.refuse with pending := rest }
      | .ok i => .run i { s with pending := rest }

end Sys2Proof.Machine
end

