-- ==== Sys2Proof/Machine/Step.lean ====
section
/-! DEFINITION. One step of the block: one host input, taken and run to completion (R16, R47). -/

namespace Sys2Proof.Machine

/-- R16: the block "executes the host operation it is given, runs that operation's pseudocode to its end, and then waits
for the next one". -/
def step (s : State) : Host.Outcome State Fault Refusal :=
  match s.fetch with
  | .ended f => .fault (.runEnded f)
  | .resetTo t => .next t
  | .refusedTo t => .next t
  | .waiting => .next s
  | .run i t => exec i t

/-- The state with the input that a word of the opcode table stands for put where the next step takes its input: at the
head of what is pending, with no reset asked for before it. -/
def State.withFetchWord (s : State) (nbits w : Nat) : State :=
  { s with pending := tableInput nbits w :: s.pending, resetReq := false }

end Sys2Proof.Machine
end

