-- ==== Sys2Proof/Machine/Assembler.lean ====
section
/-! DEFINITION. The assembly syntax (R70) and the pseudo-operations (R71): from the characters of a line to the host calls
it stands for, and from host calls to what is pending. The machine does not use these; a host does (assumption 14). -/

namespace Sys2Proof.Machine

/-! ### Operations and pseudo-operations -/

/-- R71: a sequence of host operations under one name. -/
inductive Pseudo where
  | show (syms : List Byte)
  | showNum (v : Int32Word)
  | frame (bytes : List Byte)
  | colonOn
  | colonOff
  | off
  deriving DecidableEq, Repr

/-- R71: the sequence a pseudo-operation is shorthand for. -/
def Pseudo.expand : Pseudo → List Instr
  | .show syms => [.setContent syms 0x00#8 false false, .refresh]
  | .showNum v => [.setNumber v 0x00#8 false false, .refresh]
  | .frame bytes => .beginFrame :: bytes.map .send ++ [.endFrame]
  | .colonOn => [.setColon true]
  | .colonOff => [.setColon false]
  | .off => [.setLevel 0#32, .refresh]

/-- R67: an operation's opcode and the names of its operands, by its mnemonic. -/
def asmRows : List (String × Byte × List String) :=
  [("BEGIN", 0x01#8, []), ("END", 0x02#8, []), ("SEND", 0x03#8, ["b"]), ("ENCODE", 0x10#8, ["s"]),
   ("SETCONTENT", 0x11#8, ["syms", "off", "ovf", "pad"]), ("SETNUMBER", 0x12#8, ["v", "off", "ovf", "pad"]),
   ("OVERLAY", 0x13#8, []), ("CLEAR", 0x14#8, []), ("SETCOLON", 0x15#8, ["c"]), ("SETDP", 0x16#8, ["m"])]
  ++ [("FROMLEVEL", 0x20#8, ["n"]), ("TOPERCENT", 0x21#8, ["l"]), ("FROMPERCENT", 0x22#8, ["p"]),
   ("SETLEVEL", 0x23#8, ["n"]), ("SETPERCENT", 0x24#8, ["p"]), ("REFRESH", 0x30#8, []),
   ("BLINK", 0x40#8, ["d", "now"]), ("FADEOUT", 0x41#8, ["d", "now"]), ("FADEIN", 0x42#8, ["d", "now"]),
   ("SCROLL", 0x43#8, ["d", "now"]), ("RESETANIM", 0x44#8, [])]

/-! ### Characters and numbers -/

/-- Why a line is not of R70's syntax. -/
inductive AsmError where
  | unknownMnemonic
  | badOperand
  | unclosedString
  deriving DecidableEq, Repr

/-- Without the blanks in front. -/
def trimLeft : List Char → List Char
  | [] => []
  | c :: rest => if c = ' ' ∨ c = '\t' then trimLeft rest else c :: rest

/-- Without the blanks at either end. -/
def trim (l : List Char) : List Char := (trimLeft (trimLeft l).reverse).reverse

/-- R70: without the comment that `;` starts, outside a quoted string or character. -/
def stripComment : Option Char → List Char → List Char
  | _, [] => []
  | none, c :: rest =>
    if c = ';' then []
    else if c = '"' ∨ c = '\'' then c :: stripComment (some c) rest
    else c :: stripComment none rest
  | some q, c :: rest => c :: stripComment (if c = q then none else some q) rest

/-- The pieces between commas outside quotes. -/
def splitOperands : Option Char → List Char → List (List Char)
  | _, [] => [[]]
  | q, c :: rest =>
    if q = none ∧ c = ',' then [] :: splitOperands none rest
    else
      let q' := match q with
        | none => if c = '"' ∨ c = '\'' then some c else none
        | some d => if c = d then none else some d
      match splitOperands q' rest with
      | [] => [[c]]
      | p :: ps => (c :: p) :: ps

/-- A digit's value in bases up to 16. -/
def digitValue (c : Char) : Option Nat :=
  if '0' ≤ c ∧ c ≤ '9' then some (c.toNat - '0'.toNat)
  else if 'a' ≤ c ∧ c ≤ 'f' then some (c.toNat - 'a'.toNat + 10)
  else if 'A' ≤ c ∧ c ≤ 'F' then some (c.toNat - 'A'.toNat + 10)
  else none

/-- The digits of a number in a base, read after `acc`. -/
def readDigits (base : Nat) : Nat → List Char → Option Nat
  | acc, [] => some acc
  | acc, c :: rest =>
    match digitValue c with
    | some d => if d < base then readDigits base (acc * base + d) rest else none
    | none => none

/-- A number with at least one digit. -/
def readNat (base : Nat) (l : List Char) : Option Nat := if l = [] then none else readDigits base 0 l

/-- R70: "decimal or 0x-hexadecimal"; R9: `0b` for binary. -/
def readUnsigned : List Char → Option Nat
  | '0' :: 'x' :: rest => readNat 16 rest
  | '0' :: 'b' :: rest => readNat 2 rest
  | l => readNat 10 l

/-- The characters before and after the first c, if there is one. -/
def splitAtChar (c : Char) : List Char → Option (List Char × List Char)
  | [] => none
  | d :: rest => if d = c then some ([], rest) else (splitAtChar c rest).map (fun p => (d :: p.1, p.2))

/-- R70: "Rationals are written a/b or as a decimal fraction"; an integer is one too. -/
def readMagnitude (l : List Char) : Option Rat :=
  match splitAtChar '/' l, splitAtChar '.' l with
  | some (a, b), _ => do
    let n ← readNat 10 a
    let d ← readNat 10 b
    if d = 0 then none else some (mkRat n d)
  | none, some (a, b) => do
    let n ← readNat 10 a
    let f ← readNat 10 b
    some (mkRat (n * 10 ^ b.length + f : Nat) (10 ^ b.length))
  | none, none => (readUnsigned l).map (fun n => Rat.ofInt n)

/-- A number with its sign, or the code of a character (R10). -/
def readNumber : List Char → Option Rat
  | '-' :: rest => (readMagnitude rest).map (fun q => -q)
  | ['\'', c, '\''] => some (Rat.ofInt c.toNat)
  | l => readMagnitude l

/-- R70: "A symbol sequence is written as a double-quoted string, each character being its 8-bit code". -/
def readOperand : List Char → Except AsmError Operand
  | '"' :: rest =>
    match splitAtChar '"' rest with
    | some (inside, []) => .ok (.syms (inside.map Char.toNat))
    | some (_, _ :: _) => .error .badOperand
    | none => .error .unclosedString
  | l =>
    match readNumber l with
    | some q => .ok (.num q)
    | none => .error .badOperand

/-- R70: "Operands may be named (off=1)": a name is the one R67 gives the operand's place. -/
def readNamed (names : List String) (piece : List Char) : Except AsmError Operand :=
  match names with
  | [] => readOperand (trim piece)
  | name :: _ =>
    match splitAtChar '=' piece with
    | some (n, v) => if trim n = name.toList then readOperand (trim v) else readOperand (trim piece)
    | none => readOperand (trim piece)

/-- The operands of a line, in their places. -/
def readOperands : List String → List (List Char) → Except AsmError (List Operand)
  | _, [] => .ok []
  | names, p :: ps => do return (← readNamed names p) :: (← readOperands names.tail ps)

/-! ### Lines -/

/-- The mnemonic of a line and what follows it. -/
def splitMnemonic : List Char → List Char × List Char
  | [] => ([], [])
  | c :: rest => if c = ' ' ∨ c = '\t' then ([], trim rest) else (c :: (splitMnemonic rest).1, (splitMnemonic rest).2)

/-- R71: a pseudo-operation's calls, from its operands as written. -/
def pseudoCalls (mnemonic : List Char) (operands : List Operand) : Option (List HostCall) :=
  let zero := Operand.ofInt 0
  if mnemonic = "SHOW".toList then some [⟨0x11#8, operands ++ [zero, zero, zero]⟩, ⟨0x30#8, []⟩]
  else if mnemonic = "SHOWNUM".toList then some [⟨0x12#8, operands ++ [zero, zero, zero]⟩, ⟨0x30#8, []⟩]
  else if mnemonic = "FRAME".toList then
    some (⟨0x01#8, []⟩ :: operands.map (fun o => ⟨0x03#8, [o]⟩) ++ [⟨0x02#8, []⟩])
  else if mnemonic = "COLONON".toList then some [⟨0x15#8, .ofInt 1 :: operands⟩]
  else if mnemonic = "COLONOFF".toList then some [⟨0x15#8, zero :: operands⟩]
  else if mnemonic = "OFF".toList then some [⟨0x23#8, zero :: operands⟩, ⟨0x30#8, []⟩]
  else none

/-- R70, R71: the host calls a line stands for: none for an empty line or a comment. Whether the operands fit their
types is the decoder's to say (R116). -/
def assembleLine (line : List Char) : Except AsmError (List HostCall) :=
  let l := trim (stripComment none line)
  if l = [] then .ok []
  else
    let (mnemonic, rest) := splitMnemonic l
    let pieces := if rest = [] then [] else splitOperands none rest
    match asmRows.find? (fun r => r.1.toList = mnemonic) with
    | some (_, opcode, names) => do return [⟨opcode, ← readOperands names pieces⟩]
    | none => do
      match pseudoCalls mnemonic (← readOperands [] pieces) with
      | some calls => return calls
      | none => throw .unknownMnemonic

/-- The calls of a program's lines, in order. -/
def assemble : List (List Char) → Except AsmError (List HostCall)
  | [] => .ok []
  | l :: rest => do return (← assembleLine l) ++ (← assemble rest)

/-- R16: the host issues calls, after those it has already issued. -/
def State.issue (s : State) (calls : List HostCall) : State := { s with pending := s.pending ++ calls.map .call }

end Sys2Proof.Machine
end

