-- ==== Sys2Proof/Machine/Frames.lean ====
section
/-! DEFINITION. Reading a wire trace: the frames it carries (R42, R64), as a listener on the two lines finds them, and the
least time its holds take (R73, R140). The machine does not use these; statements about the wire do. -/

namespace Sys2Proof.Machine

/-- A listener on the two lines. It knows the levels, the direction of DIO and the part of a frame it is in. -/
structure FrameReader where
  /-- The level on CLK. -/
  clk : Bool
  /-- The block's DIO output latch (R19). -/
  latch : Bool
  /-- The direction of DIO. -/
  dir : Dir
  /-- The level the listener takes the DIO line to have: the latch while DIO is an output (R72). DESIGN CHOICE
  (assumption 19): while DIO is an input, the level the block drove last until the sample, and the sampled level from then
  on. -/
  line : Bool
  /-- Between a start and a stop condition. -/
  inFrame : Bool
  /-- The levels at the rising clocks since the last complete byte cell, oldest first. -/
  bits : List Bool
  /-- The byte cells of the open frame: each byte with its acknowledgement draw. -/
  frame : List (Byte × Bool)
  /-- The frames closed so far, oldest first. -/
  frames : List (List (Byte × Bool))
  /-- A start inside a frame, a stop outside one or inside a byte cell, or a sample that is not in an acknowledgement
  cell (R80). -/
  malformed : Bool
  deriving DecidableEq, Repr

/-- The listener at an idle bus: both lines high, no frame open. -/
def FrameReader.idle : FrameReader :=
  { clk := true, latch := true, dir := .out, line := true, inFrame := false, bits := [], frame := [], frames := [],
    malformed := false }

/-- R43: the byte whose bits came least significant first. -/
def byteOfBits : List Bool → Byte
  | [] => 0x00#8
  | b :: rest => (if b then 0x01#8 else 0x00#8) ||| (byteOfBits rest <<< 1)

/-- The level on DIO changes to v while the block drives the line. While CLK is high, a fall is a start condition (R74)
and a rise is a stop condition (R75). -/
def FrameReader.lineTo (r : FrameReader) (v : Bool) : FrameReader :=
  if r.clk && r.line && !v then
    { r with line := v, malformed := r.malformed || r.inFrame, inFrame := true, bits := [], frame := [] }
  else if r.clk && !r.line && v then
    { r with
      line := v, malformed := r.malformed || !r.inFrame || decide (1 < r.bits.length), inFrame := false, bits := [],
      frame := [], frames := r.frames ++ [r.frame] }
  else { r with line := v }

/-- R72: one line event. A rising clock inside a frame shows one more bit; the sample of the ninth clock completes a
byte cell. DESIGN CHOICE (assumption 19): turning DIO to input makes no edge, a sample sets the level and makes no edge,
and turning DIO back to output makes one exactly where the latch is not at the sampled level. -/
def FrameReader.event (r : FrameReader) : Event → FrameReader
  | .clk v =>
    if v && !r.clk && r.inFrame then { r with clk := v, bits := r.bits ++ [r.line] } else { r with clk := v }
  | .dio v =>
    match r.dir with
    | .out => { r with latch := v }.lineTo v
    | .inp => { r with latch := v }
  | .dir .out => { r with dir := .out }.lineTo r.latch
  | .dir .inp => { r with dir := .inp }
  | .hold _ => r
  | .sample a =>
    { r with
      line := a, bits := [], frame := r.frame ++ [(byteOfBits (r.bits.take 8), a)]
      malformed := r.malformed || !decide (r.bits.length = 9) || !decide (r.dir = .inp) }

/-- Reading a trace from a listener's state on. -/
def FrameReader.read (r : FrameReader) (trace : List Event) : FrameReader := trace.foldl FrameReader.event r

/-- R42: the bytes of each frame a trace carries, read from an idle bus. -/
def frameBytes (trace : List Event) : List (List Byte) :=
  (FrameReader.idle.read trace).frames.map (fun f => f.map Prod.fst)

/-- The acknowledgement draws of a trace, in order (R77). -/
def sampledAcks (trace : List Event) : List Bool :=
  trace.filterMap (fun e => match e with | .sample a => some a | .clk _ | .dio _ | .dir _ | .hold _ => none)

/-- R140: the sum of the `HOLD` parameters of a trace, in microseconds. -/
def holdMicros (trace : List Event) : Nat :=
  (trace.map (fun e => match e with
    | .hold t => Config.microseconds t
    | .clk _ | .dio _ | .dir _ | .sample _ => 0)).sum

/-- R78, R140: the longest the samples of a trace wait, in microseconds: at most `P_T_ACK` each. -/
def waitMicros (trace : List Event) : Nat := (sampledAcks trace).length * Config.microseconds .tAck

end Sys2Proof.Machine
end

