-- ==== Sys2Proof/Safety.lean ====
section
/-! DEFINITION. What holds between operations (R18, R24 to R29, R74, R80), and what counts as a safe run (R117). -/

namespace Sys2Proof.Machine

/-- R24: the buffer is in canonical form, holds nothing at or past the content length, and never a code with bit 7
set; the content length is at most the capacity (R23). -/
abbrev Display.BufferOk (c : Config) (d : Display) : Prop :=
  Memory.wf d.buf = true ∧ d.len ≤ c.cacheCap ∧ ∀ cell ∈ d.buf, cell.1 < d.len ∧ cell.2.getLsbD 7 = false

/-- R26, R27: the decimal-point bits at and above `P_N` are 0, and W is at most the capacity. -/
abbrev Display.OverlayOk (c : Config) (d : Display) : Prop :=
  (∀ p, c.pN ≤ p → d.dp.getLsbD p = false) ∧ d.win ≤ c.cacheCap

/-- R28, R32: the two level registers hold 0..8. -/
abbrev State.LevelsOk (s : State) : Prop := s.lvl.toNat ≤ 8 ∧ s.anim.saved.toNat ≤ 8

/-- R18, R74, R75, R76: between operations CLK is high and DIO an output, and both lines are high outside a session. -/
abbrev Bus.LinesOk (b : Bus) : Prop :=
  b.clkLvl = true ∧ b.dioDir = .out ∧ (b.sessOpen = false → b.dioLvl = true)

/-- What holds between operations of a legally configured block. -/
structure State.Inv (s : State) : Prop where
  cfgLegal : s.cfg.legal = true
  bufferOk : s.disp.BufferOk s.cfg
  overlayOk : s.disp.OverlayOk s.cfg
  levelsOk : s.LevelsOk
  linesOk : s.bus.LinesOk

/-- R72, R80: a listener that has read the whole trace knows the line state the block is in, is in a frame exactly when
a session is open, is between byte cells, and has met nothing malformed. -/
structure Bus.WireOk (b : Bus) : Prop where
  wellFormed : (FrameReader.idle.read b.trace).malformed = false
  sessionIsFrame : (FrameReader.idle.read b.trace).inFrame = b.sessOpen
  betweenBytes : (FrameReader.idle.read b.trace).bits = []
  clkKnown : (FrameReader.idle.read b.trace).clk = b.clkLvl
  dirKnown : (FrameReader.idle.read b.trace).dir = b.dioDir
  latchKnown : (FrameReader.idle.read b.trace).latch = b.dioLvl
  lineKnown : (FrameReader.idle.read b.trace).line = b.dioLvl

/-- R117: a claim about the block takes "no fault and no refusal recorded" as a premise. -/
abbrev State.Clean (s : State) : Prop := s.fault = .none ∧ s.refused = false

/-- R34: two states agree on the configuration, on every element of the block's state but the line levels, on the marks
and on what is pending. -/
def State.sameButAcks (s t : State) : Prop :=
  s.cfg = t.cfg ∧ s.disp = t.disp ∧ s.lvl = t.lvl ∧ s.anim = t.anim ∧ s.fault = t.fault ∧
    s.faultRecord = t.faultRecord ∧ s.refused = t.refused ∧ s.resetReq = t.resetReq ∧ s.pending = t.pending ∧
    s.bus.sessOpen = t.bus.sessOpen

/-- R67, R79: two results are equal, or both are acknowledgement bits. -/
def Result.sameButAck (x y : Result) : Prop := x = y ∨ ∃ a b, x = .ack a ∧ y = .ack b

/-! ### Runs -/

/-- n steps, as long as each answers a next state. -/
def steps : Nat → State → Host.Outcome State Fault Refusal
  | 0, s => .next s
  | n + 1, s =>
    match step s with
    | .next t => steps n t
    | .fault r => .fault r
    | .refused r => .refused r

/-- A block that runs the next input: legally configured, not faulted, and no reset asked for (R116, R117). -/
abbrev State.Running (s : State) : Prop := s.cfg.legal = true ∧ s.fault = .none ∧ s.resetReq = false

/-- R100, R101: the interval has elapsed at time `now`, counted modulo 2^32 from the last trigger. -/
abbrev State.dueAt (s : State) (now : Millis) : Prop :=
  s.anim.interval.toNat ≤ (now.toNat + 2 ^ 32 - s.anim.last.toNat) % 2 ^ 32

/-- Times each of which is due after the one before it, the first of them after `last`. -/
def dueTimes (interval last : Millis) : List Millis → Prop
  | [] => True
  | now :: rest => interval.toNat ≤ (now.toNat + 2 ^ 32 - last.toNat) % 2 ^ 32 ∧ dueTimes interval now rest

/-! ### The events of the transport operations, written out (R74 to R76) -/

/-- R74: the six events of a start condition. -/
def beginEvents : List Event := [.dir .out, .dio true, .clk true, .hold .tBit, .dio false, .hold .tBit]

/-- R75: the eight events of a stop condition. -/
def endEvents : List Event :=
  [.clk false, .hold .tBit, .dio false, .hold .tBit, .clk true, .hold .tBit, .dio true, .hold .tFrame]

/-- R76: the five events of a bit cell. -/
def cellEvents (v : Bool) : List Event := [.clk false, .dio v, .hold .tBit, .clk true, .hold .tBit]

/-- R76: the events of an acknowledgement cell whose sample is a. -/
def ackEvents (a : Bool) : List Event :=
  [.clk false, .dio true, .clk true, .dir .inp, .sample a] ++ (if a then [] else [.dio false])
    ++ [.hold .tSettle, .dir .out]

/-- R76: the events of a byte, bit 0 first, and of its acknowledgement. -/
def byteEvents (b : Byte) (a : Bool) : List Event :=
  cellEvents (b.getLsbD 0) ++ cellEvents (b.getLsbD 1) ++ cellEvents (b.getLsbD 2) ++ cellEvents (b.getLsbD 3)
    ++ cellEvents (b.getLsbD 4) ++ cellEvents (b.getLsbD 5) ++ cellEvents (b.getLsbD 6) ++ cellEvents (b.getLsbD 7)
    ++ ackEvents a

/-- R42, R64, R99: the events of a frame, from its bytes with the draw each got: BEGIN, a SEND for each byte, END. -/
def sentFrame (cells : List (Byte × Bool)) : List Event :=
  beginEvents ++ cells.flatMap (fun c => byteEvents c.1 c.2) ++ endEvents

/-- R76, R79: a trace as it is when the chip acknowledges nothing. It has every event of the trace but the `DIO(0)` that
follows a sample of 0, and every sample is 1. -/
def withoutAcks : List Event → List Event
  | [] => []
  | .sample false :: .dio false :: rest => .sample true :: withoutAcks rest
  | .sample _ :: rest => .sample true :: withoutAcks rest
  | e :: rest => e :: withoutAcks rest

/-! ### Which operands an operation takes (R66, R67) -/

/-- R66: what each operand type holds. -/
def OperandType.admits (t : OperandType) (o : Operand) : Prop :=
  match t with
  | .u8 => ∃ n : Nat, n ≤ 255 ∧ o = .num n
  | .bit => o = .num 0 ∨ o = .num 1
  | .i32 => ∃ n : Int, -2 ^ 31 ≤ n ∧ n ≤ 2 ^ 31 - 1 ∧ o = .num n
  | .lvl => ∃ n : Nat, n ≤ 8 ∧ o = .num n
  | .rat => ∃ q : Rat, o = .num q
  | .u32 => ∃ n : Nat, n ≤ 2 ^ 32 - 1 ∧ o = .num n
  | .symSeq => ∃ l : List Nat, l.length ≤ 255 ∧ (∀ x ∈ l, x ≤ 255) ∧ o = .syms l

/-- R67: the opcodes and the operand types of each, in the table's order. -/
def operandTable : List (Byte × List OperandType) :=
  [(0x01#8, []), (0x02#8, []), (0x03#8, [.u8]), (0x10#8, [.u8]), (0x11#8, [.symSeq, .u8, .bit, .bit]),
   (0x12#8, [.i32, .u8, .bit, .bit]), (0x13#8, []), (0x14#8, []), (0x15#8, [.bit]), (0x16#8, [.u8])]
  ++ [(0x20#8, [.i32]), (0x21#8, [.lvl]), (0x22#8, [.rat]), (0x23#8, [.i32]), (0x24#8, [.rat]), (0x30#8, []),
   (0x40#8, [.u32, .u32]), (0x41#8, [.u32, .u32]), (0x42#8, [.u32, .u32]), (0x43#8, [.u32, .u32]), (0x44#8, [])]

/-! ### Which operation faults when (R115) -/

/-- R67: the opcode of a host operation, and none for a wire byte. -/
def hostOpcode (i : Instr) : Option Byte :=
  match encode i with
  | .call c => some c.opcode
  | .command _ => none
  | .content _ => none

/-- R115: the fault a host operation raises in a state, and what is recorded with it; none when it raises none. -/
def sessionMisuse (i : Instr) (s : State) : Option (FaultCode × FaultRecord) :=
  let dueTick (k : AnimKind) (now : Millis) : Bool :=
    decide (s.anim.kind = k) &&
      decide (s.anim.interval.toNat ≤ (now.toNat + 2 ^ 32 - s.anim.last.toNat) % 2 ^ 32)
  match i, s.bus.sessOpen with
  | .beginFrame, true => some (.f1SessionOpen, ⟨0x01#8, none⟩)
  | .endFrame, false => some (.f2NoSession, ⟨0x02#8, none⟩)
  | .send b, false => some (.f2NoSession, ⟨0x03#8, some b⟩)
  | .refresh, true => some (.f3FrameInSession, ⟨0x30#8, none⟩)
  | .blink _ now, true => if dueTick .blink now then some (.f3FrameInSession, ⟨0x40#8, none⟩) else none
  | .fadeOut _ now, true => if dueTick .fadeOut now then some (.f3FrameInSession, ⟨0x41#8, none⟩) else none
  | .fadeIn _ now, true => if dueTick .fadeIn now then some (.f3FrameInSession, ⟨0x42#8, none⟩) else none
  | .scroll _ now, true => if dueTick .scroll now then some (.f3FrameInSession, ⟨0x43#8, none⟩) else none
  | _, _ => none

end Sys2Proof.Machine
end

