-- ==== Sys2Proof/Certificates/Slice0/Obligations.lean ====
section
/-! DEFINITION. The statements for the provers, in the order of the spec's files. -/

open Sys2Proof Sys2Proof.Machine

/-! ## Encodings (30_encoding.md) -/

/-- R65, R66, R67, R59 to R63: every operand of every well-formed instruction is in its encoding. -/
def Obligations.DecodeOfEncodeIsTheInstruction : Prop :=
  ∀ i : Instr, i.wellFormed = true → decode (encode i) = .ok i

/-- R65 to R67, R59 to R63: what decodes is a well-formed instruction, and its encoding is what was read, so that no
encoding has two meanings and no operand two written forms. -/
def Obligations.EncodeOfDecodeIsTheInput : Prop :=
  ∀ (x : HostInput) (i : Instr), decode x = .ok i → encode i = x ∧ i.wellFormed = true

/-- Encodings written out in 95_test_vectors.md (P1 to P5) and 30_encoding.md section 3. -/
def Obligations.WrittenEncodingsDecode : Prop :=
  decode (.call ⟨0x11#8, [.syms [0x31, 0x32, 0x33, 0x34], .num 0, .num 0, .num 0]⟩) =
      .ok (.setContent [0x31#8, 0x32#8, 0x33#8, 0x34#8] 0x00#8 false false) ∧
  decode (.call ⟨0x12#8, [.num (-7), .num 0, .num 0, .num 1]⟩) = .ok (.setNumber (-7) 0x00#8 false true) ∧
  decode (.call ⟨0x15#8, [.num 1]⟩) = .ok (.setColon true) ∧
  decode (.call ⟨0x23#8, [.num 8]⟩) = .ok (.setLevel 8) ∧
  decode (.call ⟨0x30#8, []⟩) = .ok .refresh ∧
  decode (.call ⟨0x42#8, [.num 100, .num 800]⟩) = .ok (.fadeIn 100 800) ∧
  decode (.call ⟨0x43#8, [.num 250, .num 2750]⟩) = .ok (.scroll 250 2750) ∧
  decode (.call ⟨0x03#8, [.num 0x44]⟩) = .ok (.send 0x44#8) ∧
  decode (.command 0b01000000#8) = .ok .wireDataAuto ∧
  decode (.command 0b11000011#8) = .ok (.wireAddr 3#4) ∧
  decode (.command 0b10001010#8) = .ok (.wireDispOn 2#3) ∧
  decode (.content 0b10000110#8) = .ok (.wirePayload 0x86#8)

/-- R68: every opcode that R67 does not list is refused and nothing changes but the mark and the taken input; every
other opcode is listed. (That the input is taken is the model's choice, assumption 13.) -/
def Obligations.UnlistedOpcodesAreRefused : Prop :=
  ∀ c : HostCall,
    let n := c.opcode.toNat
    if n = 0x00 ∨ (0x04 ≤ n ∧ n ≤ 0x0F) ∨ (0x17 ≤ n ∧ n ≤ 0x1F) ∨ (0x25 ≤ n ∧ n ≤ 0x2F) ∨ (0x31 ≤ n ∧ n ≤ 0x3F) ∨
        0x45 ≤ n then
      ∀ (s : State) (rest : List HostInput), s.Running → s.pending = .call c :: rest →
        step s = .next { s with refused := true, pending := rest }
    else decode (.call c) ≠ .error .illegalOpcode

/-- R65, R66, R67, R116: for every opcode of R67, an operand list with one operand of each of its types is decoded; any
other list is refused, whatever the session's state, and nothing changes but the mark and the taken input. (That a list
of the wrong length is refused is the model's choice, assumption 15, and so is that the input is taken, assumption 13.) -/
def Obligations.OperandsOutsideTheirTypeAreRefused : Prop :=
  ∀ (op : Byte) (types : List OperandType) (ops : List Operand), (op, types) ∈ operandTable →
    (List.Forall₂ OperandType.admits types ops → ∃ i, decode (.call ⟨op, ops⟩) = .ok i) ∧
    (¬ List.Forall₂ OperandType.admits types ops →
      ∀ (s : State) (rest : List HostInput), s.Running → s.pending = .call ⟨op, ops⟩ :: rest →
        step s = .next { s with refused := true, pending := rest })

/-- R7, R82, R93, R116: a configuration that breaks a constraint is refused before any other effect, and no input is
taken. (Which symbols a variant's table may map is the model's reading of R82, assumption 6; that no input is taken is its
choice, assumption 13.) -/
def Obligations.IllegalConfigurationsAreRefused : Prop :=
  ∀ s : State, s.fault = .none → s.resetReq = false →
    s.cfg.pN = 0 ∨ 6 < s.cfg.pN ∨ s.cfg.cacheCap < s.cfg.pN ∨ 255 < s.cfg.cacheCap ∨
    (∃ sym, (s.cfg.enc sym).getLsbD 7 = true) ∨
    (∃ sym code, fixedCode sym = some code ∧ s.cfg.enc sym ≠ code) ∨
    (∃ sym, fixedCode sym = none ∧ openSymbol s.cfg.encVariant sym = false ∧ s.cfg.enc sym ≠ 0x00#8) ∨
    s.cfg.pct[(0 : Fin 9)] ≠ 0 ∨ (∃ l : Fin 8, s.cfg.pct[l.succ] ≤ s.cfg.pct[l.castSucc]) ∨
    (∃ l : Fin 9, s.cfg.pct[l] < 0 ∨ 100 < s.cfg.pct[l]) ∨
    (∀ l : Fin 9, s.cfg.pct[l] = (l.val : Rat) / 8 * 100) ∨
    s.cfg.defaultLevel = 0#4 ∨ 8 < s.cfg.defaultLevel.toNat ∨ 8 < s.cfg.resetLevel.toNat →
    step s = .next { s with refused := true }

/-! ## Steps and faults (10_state.md, 60_exceptions.md) -/

/-- R16: a step runs the instruction that the next input decodes to, in the state the input is taken from. -/
def Obligations.StepRunsTheDecodedInstruction : Prop :=
  ∀ (s : State) (x : HostInput) (rest : List HostInput) (i : Instr),
    s.Running → s.pending = x :: rest → decode x = .ok i → step s = exec i { s with pending := rest }

/-- R16, R102: with nothing issued the block waits, and nothing happens. -/
def Obligations.BlockWaitsForTheHost : Prop :=
  ∀ s : State, s.Running → s.pending = [] → step s = .next s

/-- R115: a host operation faults exactly on the session misuse R115 lists for it, and then with R115's code and record
and no other effect; every other host operation completes, from every state, and leaves the fault mark. -/
def Obligations.FaultsAreExactlySessionMisuse : Prop :=
  ∀ (i : Instr) (s : State), hostOpcode i ≠ none →
    match sessionMisuse i s with
    | some (f, r) => exec i s = .next { s with fault := f, faultRecord := some r }
    | none => ∃ t, exec i s = .next t ∧ t.fault = s.fault ∧ t.faultRecord = s.faultRecord

/-- R117, R33: a fault writes the fault mark and no other state, emits nothing, and nothing runs after it; no step clears a
mark. (The model's choices: that every step from a faulted state answers `runEnded`, assumption 10, with a reset asked for
too, assumption 11; that the input of the operation that faults is taken, assumptions 1 and 13.) -/
def Obligations.FaultIsRecordedAndEndsTheRun : Prop :=
  (∀ (s : State) (x : HostInput) (rest : List HostInput) (i : Instr) (f : FaultCode) (r : FaultRecord),
    s.Running → s.pending = x :: rest → decode x = .ok i → sessionMisuse i s = some (f, r) →
      step s = .next { s with pending := rest, fault := f, faultRecord := some r }) ∧
  (∀ s : State, s.fault ≠ .none → ∀ n, steps (n + 1) s = .fault (.runEnded s.fault)) ∧
  (∀ s t : State, step s = .next t → s.refused = true → t.refused = true)

/-- R27, R17 to R32: an instruction writes no register but those whose rule names it as a writer, and never the
configuration (R14), the refusal mark, or what the host has issued. -/
def Obligations.OnlyNamedWritersWriteARegister : Prop :=
  ∀ (i : Instr) (s t : State), exec i s = .next t →
    (t.cfg = s.cfg ∧ t.refused = s.refused ∧ t.resetReq = s.resetReq ∧ t.pending = s.pending) ∧
    (match i with
      | .setContent _ _ _ _ | .setNumber _ _ _ _ | .clear => True
      | _ => t.disp.buf = s.disp.buf ∧ t.disp.len = s.disp.len) ∧
    (match i with | .setColon _ | .clear => True | _ => t.disp.colon = s.disp.colon) ∧
    (match i with | .setDp _ | .clear => True | _ => t.disp.dp = s.disp.dp) ∧
    (match i with
      | .blink _ _ | .fadeOut _ _ | .fadeIn _ _ | .scroll _ _ | .resetAnim => True
      | _ => t.disp.win = s.disp.win ∧ t.anim = s.anim) ∧
    (match i with
      | .setLevel _ | .setPercent _ | .blink _ _ | .fadeOut _ _ | .fadeIn _ _ => True
      | _ => t.lvl = s.lvl) ∧
    (match i with
      | .beginFrame | .endFrame | .send _ | .wireDataAuto | .wireDataFixed | .wireAddr _ | .wireDispOff
      | .wireDispOn _ | .wirePayload _ | .refresh | .blink _ _ | .fadeOut _ _ | .fadeIn _ _ | .scroll _ _ => True
      | _ => t.bus = s.bus)

/-- R14, R49: no step changes the configuration; wire events reach the trace in emission order, and a step adds events at
its end and removes or reorders none. -/
def Obligations.RunsKeepTheConfigurationAndExtendTheTrace : Prop :=
  ∀ (n : Nat) (s t : State), steps n s = .next t → t.cfg = s.cfg ∧ ∃ e, t.bus.trace = s.bus.trace ++ e

/-! ## Reset (70_reset_and_hazards.md) -/

/-- R127, R34: the reset value of every element, under every configuration; the machine's reset state
is that of TC0. (The last clause is the model's choice, assumption 7.) -/
def Obligations.ResetValuesAreTheTable : Prop :=
  State.reset = State.resetWith Config.tc0 ∧ ∀ c : Config,
    let s := State.resetWith c
    s.bus.clkLvl = true ∧ s.bus.dioDir = .out ∧ s.bus.dioLvl = true ∧ s.bus.sessOpen = false ∧
    (∀ i, s.disp.buf.read i = 0x00#8) ∧ s.disp.len = 0 ∧ s.disp.colon = false ∧ s.disp.dp = 0x00#8 ∧
    s.disp.win = 0 ∧ s.lvl = c.resetLevel ∧ s.anim.kind = .idle ∧ s.anim.interval = 0#32 ∧ s.anim.last = 0#32 ∧
    s.anim.saved = 0#4 ∧ s.fault = .none ∧ s.refused = false

/-- R33, R127, R129: a reset inside a run gives every element its reset value, emits no wire event and clears neither
mark. -/
def Obligations.ResetInsideARunKeepsTheMarks : Prop :=
  ∀ s : State, s.resetReq = true → s.fault = .none →
    ∃ t, step s = .next t ∧ t.disp = (State.resetWith s.cfg).disp ∧ t.anim = (State.resetWith s.cfg).anim ∧
      t.lvl = s.cfg.resetLevel ∧ t.bus.trace = s.bus.trace ∧ t.bus.clkLvl = true ∧ t.bus.dioDir = .out ∧
      t.bus.dioLvl = true ∧ t.bus.sessOpen = false ∧ t.fault = s.fault ∧ t.refused = s.refused ∧
      t.cfg = s.cfg ∧ t.pending = s.pending ∧ t.results = s.results ∧ t.resetReq = false

/-- R128: CLEAR then RESETANIM reaches the reset value of every element but the line state, `sess_open` and `lvl`. -/
def Obligations.ClearThenResetAnimReachesReset : Prop :=
  ∀ s : State, s.Inv → s.fault = .none →
    ∃ t u, exec .clear s = .next t ∧ exec .resetAnim t = .next u ∧ u.disp = (State.resetWith s.cfg).disp ∧
      u.anim = (State.resetWith s.cfg).anim ∧ u.fault = .none ∧ u.bus = s.bus ∧ u.lvl = s.lvl ∧ u.cfg = s.cfg ∧
      u.refused = s.refused

/-! ## Invariants -/

/-- The invariant holds at reset under every legal configuration, and so at the reset state. -/
def Obligations.ResetMeetsTheInvariant : Prop :=
  (∀ c : Config, c.legal = true → (State.resetWith c).Inv ∧ (State.resetWith c).bus.WireOk) ∧ State.reset.Inv

/-- R18, R23, R24, R26, R27, R28, R32: what holds between operations, after every step from every state where it holds. -/
def Obligations.StepKeepsTheInvariant : Prop :=
  ∀ s t : State, s.Inv → step s = .next t → t.Inv

/-- R72, R80: whatever inputs arrive and whatever the chip answers, a listener on the two lines never meets a malformed
frame, is in a frame exactly while a session is open, and knows every line level from the trace alone. A reset inside a
run emits no event (R129) and is left out by the premise. (What the listener takes DIO to show while it is an input is the
model's choice, assumption 19.) -/
def Obligations.WireIsNeverMalformed : Prop :=
  ∀ s t : State, s.bus.LinesOk → s.bus.WireOk → s.resetReq = false → step s = .next t → t.bus.LinesOk ∧ t.bus.WireOk

/-- R24: the two invariants of the buffer, as reads: blank from the content length on, and bit 7 never set. Both hold at
reset, and every operation keeps both. (The canonical form of the buffer holds of every reachable state: `StepKeepsTheInvariant`.) -/
def Obligations.EveryOperationKeepsTheBufferInvariants : Prop :=
  let blankPast := fun s : State => ∀ k, s.disp.len ≤ k → k < s.cfg.cacheCap → s.disp.buf.read k = 0x00#8
  let noOverlay := fun s : State => ∀ k, k < s.cfg.cacheCap → (s.disp.buf.read k).getLsbD 7 = false
  (∀ c : Config, blankPast (State.resetWith c) ∧ noOverlay (State.resetWith c)) ∧
  ∀ (i : Instr) (s t : State), s.cfg.legal = true → s.disp.buf.wf = true → blankPast s → noOverlay s →
    exec i s = .next t → blankPast t ∧ noOverlay t

/-- R39: no instruction writes a cell outside `0 <= i < P_CACHE_CAP`. -/
def Obligations.NoWriteOutsideTheBuffer : Prop :=
  ∀ (i : Instr) (s t : State), s.cfg.legal = true → s.disp.buf.wf = true → exec i s = .next t →
    ∀ k, s.cfg.cacheCap ≤ k → t.disp.buf.read k = s.disp.buf.read k

/-! ## Transport (40_transport.md) -/

/-- R74: BEGIN emits its six events in order, opens the session and changes nothing else; with a session open it
faults. -/
def Obligations.BeginEmitsTheStartCondition : Prop :=
  ∀ s : State,
    decode (.call ⟨0x01#8, []⟩) = .ok .beginFrame ∧
    (s.bus.sessOpen = false →
      ∃ t, exec .beginFrame s = .next t ∧
        t.bus.trace = s.bus.trace ++ [.dir .out, .dio true, .clk true, .hold .tBit, .dio false, .hold .tBit] ∧
        t = { s with
          bus := { s.bus with
            clkLvl := true, dioDir := .out, dioLvl := false, sessOpen := true, emitted := t.bus.emitted }
          results := s.results ++ [.none] }) ∧
    (s.bus.sessOpen = true →
      exec .beginFrame s =
        .next { s with fault := .f1SessionOpen, faultRecord := some ⟨0x01#8, none⟩ })

/-- R75: END emits its eight events in order, closes the session, leaves both lines high and changes nothing else; with
no session open it faults. -/
def Obligations.EndEmitsTheStopCondition : Prop :=
  ∀ s : State,
    decode (.call ⟨0x02#8, []⟩) = .ok .endFrame ∧
    (s.bus.sessOpen = true →
      ∃ t, exec .endFrame s = .next t ∧
        t.bus.trace = s.bus.trace ++
          [.clk false, .hold .tBit, .dio false, .hold .tBit, .clk true, .hold .tBit, .dio true, .hold .tFrame] ∧
        t = { s with
          bus := { s.bus with clkLvl := true, dioLvl := true, sessOpen := false, emitted := t.bus.emitted }
          results := s.results ++ [.none] }) ∧
    (s.bus.sessOpen = false →
      exec .endFrame s = .next { s with fault := .f2NoSession, faultRecord := some ⟨0x02#8, none⟩ })

/-- R76: SEND emits the eight bit cells of its byte, bit 0 first, and the acknowledgement cell of the level drawn; it
returns that level, leaves it in the DIO latch with CLK high and DIO an output, and changes nothing else; with no session
open it faults. It holds for every draw. -/
def Obligations.SendShiftsLsbFirstAndReadsTheAck : Prop :=
  ∀ (b : Byte) (s : State),
    decode (.call ⟨0x03#8, [.num b.toNat]⟩) = .ok (.send b) ∧
    (s.bus.sessOpen = true →
      ∃ t a, exec (.send b) s = .next t ∧ (∀ x rest, s.bus.acks = x :: rest → a = x) ∧
        t.bus.trace = s.bus.trace
          ++ (List.range 8).flatMap (fun i => cellEvents (b.getLsbD i))
          ++ [.clk false, .dio true, .clk true, .dir .inp, .sample a]
          ++ (if a then [] else [.dio false]) ++ [.hold .tSettle, .dir .out] ∧
        t = { s with
          bus := { s.bus with
            clkLvl := true, dioDir := .out, dioLvl := a, emitted := t.bus.emitted, acks := s.bus.acks.tail
            samples := s.bus.samples + 1 }
          results := s.results ++ [.ack a] }) ∧
    (s.bus.sessOpen = false →
      exec (.send b) s = .next { s with fault := .f2NoSession, faultRecord := some ⟨0x03#8, some b⟩ })

/-- R59, R60, R61, R63: each wire byte class does what SEND of the byte of its pattern does, in any state; in an open
session that puts the byte on the wire. (That a wire byte is run so is the model's choice, assumption 2.) -/
def Obligations.WireBytesAreShiftedOut : Prop :=
  ∀ (s : State) (a : BitVec 4) (ppp : BitVec 3) (c : Byte),
    ∀ p ∈ [(Instr.wireDataAuto, 0x40#8), (.wireDataFixed, 0x44#8), (.wireAddr a, 0xC0#8 ||| a.zeroExtend 8),
        (.wireDispOff, 0x80#8), (.wireDispOn ppp, 0x88#8 ||| ppp.zeroExtend 8), (.wirePayload c, c)],
      exec p.1 s = exec (.send p.2) s ∧
      (s.bus.sessOpen = true →
        ∃ t x, exec p.1 s = .next t ∧ t.bus.trace = s.bus.trace ++ byteEvents p.2 x ∧
          t = { s with bus := t.bus, results := s.results ++ [.ack x] })

/-- R81: the numbers of events: 6 for BEGIN, 8 for END, 48 for an acknowledged SEND and 47 for one that is not. A bit
cell has 5 of them, and an acknowledgement cell 8 or 7. -/
def Obligations.TransportEventCounts : Prop :=
  (∀ v, (cellEvents v).length = 5) ∧ (ackEvents false).length = 8 ∧ (ackEvents true).length = 7 ∧
  ∀ (s : State) (b : Byte),
    (s.bus.sessOpen = false →
      ∃ t, exec .beginFrame s = .next t ∧ t.bus.trace.length = s.bus.trace.length + 6) ∧
    (s.bus.sessOpen = true →
      ∃ t, exec .endFrame s = .next t ∧ t.bus.trace.length = s.bus.trace.length + 8) ∧
    (s.bus.sessOpen = true →
      ∃ t a, exec (.send b) s = .next t ∧ t.results = s.results ++ [.ack a] ∧
        t.bus.trace = s.bus.trace ++ (List.range 8).flatMap (fun i => cellEvents (b.getLsbD i)) ++ ackEvents a ∧
        t.bus.trace.length = s.bus.trace.length + if a then 47 else 48)

/-- R140: the least time the holds of a SEND take, sixteen bit holds and one settle, and the longest its sample waits. -/
def Obligations.SendHoldsSixteenBitTimes : Prop :=
  ∀ (b : Byte) (s : State), s.bus.sessOpen = true →
    ∃ t, exec (.send b) s = .next t ∧
      holdMicros t.bus.trace =
        holdMicros s.bus.trace + 16 * Config.microseconds .tBit + Config.microseconds .tSettle ∧
      waitMicros t.bus.trace = waitMicros s.bus.trace + Config.microseconds .tAck

/-- R42: `BEGIN; SEND b1; ...; SEND bk; END` (the pseudo-operation FRAME of R71) run from a closed session completes, and
a listener reads from its events exactly one frame: the bytes, each with the draw SEND returned for it. (What the listener
takes DIO to show while it is an input is the model's choice, assumption 19.) -/
def Obligations.FrameCarriesItsBytes : Prop :=
  ∀ (s : State) (bytes : List Byte) (rest : List HostInput), s.Running → s.bus.sessOpen = false →
    s.pending = (Pseudo.frame bytes).expand.map encode ++ rest →
    ∃ t e acks, steps (bytes.length + 2) s = .next t ∧ t.bus.trace = s.bus.trace ++ e ∧
      acks.length = bytes.length ∧ acks = sampledAcks e ∧
      (FrameReader.idle.read e).frames = [bytes.zip acks] ∧ (FrameReader.idle.read e).malformed = false ∧
      t = { s with
        bus := t.bus, pending := rest
        results := s.results ++ [.none] ++ acks.map .ack ++ [.none] }

/-- R77, R79, R114: the chip's answers decide nothing but the acknowledgement bits in the results, the sample events with
the `DIO(0)` that follows a sample of 0, and the DIO level left. Two runs of an instruction from states that differ only in
the coming answers both complete; they emit the same events apart from those, return the same results apart from those
bits, and agree on every other element of the state. -/
def Obligations.AcknowledgementsAreAdvisory : Prop :=
  ∀ (i : Instr) (s : State) (acks : List Bool),
    ∃ (t u : State) (e f : List Event), exec i s = .next t ∧
      exec i { s with bus := { s.bus with acks := acks } } = .next u ∧
      t.bus.trace = s.bus.trace ++ e ∧ u.bus.trace = s.bus.trace ++ f ∧ withoutAcks e = withoutAcks f ∧
      List.Forall₂ Result.sameButAck t.results u.results ∧
      t.sameButAcks u ∧ t.bus.samples = u.bus.samples ∧ t.bus.clkLvl = u.bus.clkLvl ∧ t.bus.dioDir = u.bus.dioDir

/-! ## Segment encoder and display buffer (41_encoder_buffer.md) -/

/-- R57: the fixed entries of `P_ENC`, in both variants. -/
def Obligations.FixedSymbolsHaveTheirCodes : Prop :=
  ∀ c : Config, c.legal = true →
    (∀ p ∈ [(0x30#8, 0x3F#8), (0x31#8, 0x06#8), (0x32#8, 0x5B#8), (0x33#8, 0x4F#8), (0x34#8, 0x66#8), (0x35#8, 0x6D#8),
        (0x36#8, 0x7D#8), (0x37#8, 0x07#8), (0x38#8, 0x7F#8), (0x39#8, 0x6F#8), (0x2D#8, 0x40#8), (0x20#8, 0x00#8)],
      c.enc p.1 = p.2) ∧
    zeroCode = c.enc 0x30#8

/-- R82: ENCODE returns the code of its symbol and changes nothing. The table has the fixed entries of R57; every code has
bit 7 clear; a symbol outside the variant's table is blank: under `DIGITS_ALPHA` only digits, the minus sign and lowercase
letters are not, and under `ASCII` none outside 0x20..0x7E. (Which symbols are outside a
variant's table is the model's reading of R82, assumption 6: vector E3 leaves an uppercase letter under `DIGITS_ALPHA`
open.) -/
def Obligations.EncodeIsTotalAndNeverSetsTheOverlayBit : Prop :=
  ∀ (s : State) (sym : Byte), s.cfg.legal = true →
    hostOpcode (.encodeSym sym) = some 0x10#8 ∧
    exec (.encodeSym sym) s = .next { s with results := s.results ++ [.code (s.cfg.enc sym)] } ∧
    (∀ code, fixedCode sym = some code → s.cfg.enc sym = code) ∧
    (s.cfg.enc sym).getLsbD 7 = false ∧
    (sym.toNat < 0x20 ∨ 0x7E < sym.toNat → s.cfg.enc sym = 0x00#8) ∧
    (s.cfg.encVariant = .digitsAlpha → s.cfg.enc sym ≠ 0x00#8 →
      (0x30 ≤ sym.toNat ∧ sym.toNat ≤ 0x39) ∨ sym = 0x2D#8 ∨ (0x61 ≤ sym.toNat ∧ sym.toNat ≤ 0x7A))

/-- R83, R84: after SETCONTENT, with capacity C, o = min(off, C) and k = min(len(syms), C - o), every cell holds what R84
says, the content length is R84's, and nothing else changes. -/
def Obligations.SetContentStoresTruncatesBlanksAndPads : Prop :=
  ∀ (s : State) (syms : List Byte) (off : Byte) (ovf pad : Bool), s.cfg.legal = true → s.disp.buf.wf = true →
    let C := if ovf then s.cfg.cacheCap else s.cfg.pN
    let o := min off.toNat C
    let k := min syms.length (C - o)
    hostOpcode (.setContent syms off ovf pad) = some 0x11#8 ∧
    ∃ t, exec (.setContent syms off ovf pad) s = .next t ∧
      t = { s with
        disp := { s.disp with buf := t.disp.buf, len := t.disp.len }
        results := s.results ++ [.none] } ∧
      t.disp.len = (if pad = true ∧ o + k < s.cfg.pN then s.cfg.pN else o + k) ∧
      ∀ i, t.disp.buf.read i =
        if i < o then s.disp.buf.read i
        else if i < o + k then s.cfg.enc (syms.getD (i - o) 0x00#8)
        else if pad = true ∧ i < s.cfg.pN then 0x3F#8
        else if i < s.cfg.cacheCap then 0x00#8
        else s.disp.buf.read i

/-- R85: the decimal rendering of any m: digit symbols, most significant first, whose value is m, with no leading zero
but for 0 itself. -/
def Obligations.DecIsTheDecimalRendering : Prop :=
  dec 0 = [0x30#8] ∧
  ∀ m : Nat,
    (∀ x ∈ dec m, 0x30 ≤ x.toNat ∧ x.toNat ≤ 0x39) ∧
    (dec m).foldl (fun n x => 10 * n + (x.toNat - 0x30)) 0 = m ∧
    (m ≠ 0 → ∃ x rest, dec m = x :: rest ∧ x ≠ 0x30#8)

/-- R86: SETNUMBER stores, as SETCONTENT without padding would, the rendering of the number, with the fill in front of it
that the room leaves. -/
def Obligations.SetNumberStoresTheAlignedRendering : Prop :=
  ∀ (s : State) (v : Int32Word) (off : Byte) (ovf pad : Bool),
    let r := (if v.toInt < 0 then [0x2D#8] else []) ++ dec v.toInt.natAbs
    let fill := if pad = true ∧ 0 ≤ v.toInt then 0x30#8 else 0x20#8
    hostOpcode (.setNumber v off ovf pad) = some 0x12#8 ∧
    ∃ t, exec (.setNumber v off ovf pad) s = .next t ∧
      exec (.setContent (List.replicate (s.cfg.pN - off.toNat - r.length) fill ++ r) off ovf false) s = .next t ∧
      t = { s with
        disp := { s.disp with buf := t.disp.buf, len := t.disp.len }
        results := s.results ++ [.none] }

/-- R44, R86: a number that fits in the room from the offset is right-aligned in the window: its j-th digit from the
right stands j positions left of the window's end, the minus sign just before the digits, and the fill before that. -/
def Obligations.FittingNumberIsRightAligned : Prop :=
  ∀ (s t : State) (v : Int32Word) (off : Byte) (ovf pad : Bool) (nd : Nat), s.cfg.legal = true →
    s.disp.buf.wf = true →
    1 ≤ nd → v.toInt.natAbs < 10 ^ nd → (nd = 1 ∨ 10 ^ (nd - 1) ≤ v.toInt.natAbs) →
    off.toNat + nd + (if v.toInt < 0 then 1 else 0) ≤ s.cfg.pN →
    exec (.setNumber v off ovf pad) s = .next t →
      t.disp.len = s.cfg.pN ∧
      (∀ j, j < nd →
        t.disp.buf.read (s.cfg.pN - 1 - j) = s.cfg.enc (BitVec.ofNat 8 (0x30 + v.toInt.natAbs / 10 ^ j % 10))) ∧
      (v.toInt < 0 → t.disp.buf.read (s.cfg.pN - 1 - nd) = 0x40#8) ∧
      (∀ p, off.toNat ≤ p → p + nd + (if v.toInt < 0 then 1 else 0) < s.cfg.pN →
        t.disp.buf.read p = if pad = true ∧ 0 ≤ v.toInt then 0x3F#8 else 0x00#8) ∧
      (∀ p, p < off.toNat → t.disp.buf.read p = s.disp.buf.read p)

/-- R40, R87, R88: OVERLAY returns P_N codes, the one at position p being cell W + p of the buffer, blank past the
capacity, with bit 7 set when the colon or the position's decimal point is on; it changes nothing. -/
def Obligations.OverlayReturnsTheTransmittedView : Prop :=
  ∀ s : State,
    hostOpcode .overlay = some 0x13#8 ∧
    ∃ l, exec .overlay s = .next { s with results := s.results ++ [.view l] } ∧ l.length = s.cfg.pN ∧
      ∀ p, p < s.cfg.pN →
        l[p]? = some
          ((if s.disp.win + p < s.cfg.cacheCap then s.disp.buf.read (s.disp.win + p) else 0x00#8) |||
            (if s.disp.colon = true ∨ s.disp.dp.getLsbD p = true then 0x80#8 else 0x00#8))

/-- R88, 41_encoder_buffer.md and W6 of 95_test_vectors.md: the views with the colon on and off differ in bit 7 at most,
and the buffer is unchanged. -/
def Obligations.ColonChangesOnlyBitSeven : Prop :=
  ∀ s : State, s.Running →
    s.pending = [.setColon true, .overlay, .setColon false, .overlay].map encode →
    ∃ (t : State) (on off : List Byte), steps 4 s = .next t ∧ t.results = s.results ++ [.none, .view on, .none, .view off] ∧
      on.length = off.length ∧
      (∀ (p : Nat) (x y : Byte), on[p]? = some x → off[p]? = some y → x &&& 0x7F#8 = y &&& 0x7F#8 ∧ x.getLsbD 7 = true) ∧
      t = { s with disp := { s.disp with colon := false }, pending := [], results := t.results }

/-- R89: CLEAR blanks every cell, zeroes the content length, turns the colon and every decimal point off, and changes
nothing else. -/
def Obligations.ClearBlanksBufferAndOverlay : Prop :=
  ∀ s : State, s.disp.buf.wf = true →
    hostOpcode .clear = some 0x14#8 ∧
    ∃ t, exec .clear s = .next t ∧
      t = { s with
        disp := { buf := t.disp.buf, len := 0, colon := false, dp := 0x00#8, win := s.disp.win }
        results := s.results ++ [.none] } ∧
      ∀ i, t.disp.buf.read i = if i < s.cfg.cacheCap then 0x00#8 else s.disp.buf.read i

/-- R90: SETCOLON sets the colon flag and changes nothing else. -/
def Obligations.SetColonWritesTheFlag : Prop :=
  ∀ (s : State) (c : Bool),
    hostOpcode (.setColon c) = some 0x15#8 ∧
    exec (.setColon c) s =
      .next { s with disp := { s.disp with colon := c }, results := s.results ++ [.none] }

/-- R91: SETDP sets the mask's bits below P_N, drops those at and above it, and changes nothing else. -/
def Obligations.SetDpDropsBitsPastTheWindow : Prop :=
  ∀ (s : State) (m : Byte), s.cfg.legal = true →
    hostOpcode (.setDp m) = some 0x16#8 ∧
    ∃ t, exec (.setDp m) s = .next t ∧
      t = { s with disp := { s.disp with dp := t.disp.dp }, results := s.results ++ [.none] } ∧
      ∀ p, t.disp.dp.getLsbD p = (decide (p < s.cfg.pN) && m.getLsbD p)

/-! ## Brightness (42_brightness.md) -/

/-- R94: FROMLEVEL returns n for 0 <= n <= 8 and `P_DEFAULT_LEVEL` for every other n, so a level 0..8, and changes
nothing. -/
def Obligations.FromLevelReturnsLevelOrDefault : Prop :=
  ∀ (s : State) (n : Int32Word),
    hostOpcode (.fromLevel n) = some 0x20#8 ∧
    ∃ l, exec (.fromLevel n) s = .next { s with results := s.results ++ [.level l] } ∧
      (0 ≤ n.toInt → n.toInt ≤ 8 → (l.toNat : Int) = n.toInt) ∧
      (n.toInt < 0 ∨ 8 < n.toInt → l = s.cfg.defaultLevel) ∧ (s.cfg.legal = true → l.toNat ≤ 8)

/-- R95, R93: TOPERCENT returns the level's percent and changes nothing; the percent is at least 0 and at most 100, and
rises with the level. -/
def Obligations.ToPercentRisesWithTheLevel : Prop :=
  ∀ (s : State) (l : Fin 9), s.cfg.legal = true →
    hostOpcode (.toPercent l) = some 0x21#8 ∧
    exec (.toPercent l) s = .next { s with results := s.results ++ [.percent s.cfg.pct[l]] } ∧
    0 ≤ s.cfg.pct[l] ∧ s.cfg.pct[l] ≤ 100 ∧ ∀ k : Fin 9, k < l → s.cfg.pct[k] < s.cfg.pct[l]

/-- R96: FROMPERCENT returns the least level whose percent is at least p, and 8 when there is none; it changes
nothing. -/
def Obligations.FromPercentReturnsTheLeastLevel : Prop :=
  ∀ (s : State) (p : Rat),
    hostOpcode (.fromPercent p) = some 0x22#8 ∧
    ∃ k : Fin 9, exec (.fromPercent p) s = .next { s with results := s.results ++ [.level (BitVec.ofNat 4 k.val)] } ∧
      (∀ j : Fin 9, j < k → s.cfg.pct[j] < p) ∧ (p ≤ s.cfg.pct[k] ∨ k = 8)

/-- R93, R95, R96: a level's percent converts back to the level. -/
def Obligations.PercentOfALevelConvertsBack : Prop :=
  ∀ (s : State) (l : Fin 9), s.cfg.legal = true →
    exec (.fromPercent s.cfg.pct[l]) s =
      .next { s with results := s.results ++ [.level (BitVec.ofNat 4 l.val)] }

/-- R97: SETLEVEL sets the level to n for 0 <= n <= 8 and to `P_DEFAULT_LEVEL` for every other n, and changes nothing
else. -/
def Obligations.SetLevelWritesLevelOrDefault : Prop :=
  ∀ (s : State) (n : Int32Word),
    hostOpcode (.setLevel n) = some 0x23#8 ∧
    ∃ t, exec (.setLevel n) s = .next t ∧ t = { s with lvl := t.lvl, results := s.results ++ [.none] } ∧
      (0 ≤ n.toInt → n.toInt ≤ 8 → (t.lvl.toNat : Int) = n.toInt) ∧
      (n.toInt < 0 ∨ 8 < n.toInt → t.lvl = s.cfg.defaultLevel)

/-- R98: SETPERCENT sets the level to the least one whose percent is at least p, and to 8 when there is none, and changes
nothing else. -/
def Obligations.SetPercentWritesTheLeastLevel : Prop :=
  ∀ (s : State) (p : Rat),
    hostOpcode (.setPercent p) = some 0x24#8 ∧
    ∃ k : Fin 9,
      exec (.setPercent p) s =
        .next { s with lvl := BitVec.ofNat 4 k.val, results := s.results ++ [.none] } ∧
      (∀ j : Fin 9, j < k → s.cfg.pct[j] < p) ∧ (p ≤ s.cfg.pct[k] ∨ k = 8)

/-- R62: the display-control byte of a level, in the parameters, and with their defaults of R7: 0x80 for level 0 and
0x88 + (l - 1) for l in 1..8. -/
def Obligations.DisplayControlByteOfALevel : Prop :=
  ∀ (c : Config) (l : Level),
    (l = 0#4 → dispCtrl c l = c.cmdDisp) ∧
    (1 ≤ l.toNat → l.toNat ≤ 8 → dispCtrl c l = c.cmdDisp ||| c.dispOn ||| BitVec.ofNat 8 (l.toNat - 1)) ∧
    (c.cmdDisp = 0x80#8 → c.dispOn = 0x08#8 →
      (l = 0#4 → dispCtrl c l = 0x80#8) ∧
      (1 ≤ l.toNat → l.toNat ≤ 8 → (dispCtrl c l).toNat = 0x88 + (l.toNat - 1)))

/-! ## Refresh (43_animator.md) -/

/-- R99: REFRESH from a closed session completes whatever the chip answers; its events, holds included, are those of
BEGIN, a SEND for each byte and END (R74 to R76) for exactly the frames of R99, in order; a listener reads those frames
from them, well formed, each byte with its draw; the result is the OR of the draws; the lines end idle and closed; nothing
else changes. With a session open it faults. (What the listener takes DIO to show while it is an input is the model's
choice, assumption 19; the events do not depend on it.) -/
def Obligations.RefreshSendsItsFramesInOrder : Prop :=
  ∀ s : State,
    let tx := fun p =>
      (if s.disp.win + p < s.cfg.cacheCap then s.disp.buf.read (s.disp.win + p) else 0x00#8) |||
        (if s.disp.colon = true ∨ s.disp.dp.getLsbD p = true then 0x80#8 else 0x00#8)
    let ctrl :=
      if s.lvl = 0#4 then s.cfg.cmdDisp else s.cfg.cmdDisp ||| s.cfg.dispOn ||| BitVec.ofNat 8 (s.lvl.toNat - 1)
    let sent := match s.cfg.addrMode with
      | .auto => [[s.cfg.cmdDataAuto], s.cfg.cmdAddr :: (List.range s.cfg.pN).map tx, [ctrl]]
      | .fixed =>
        [s.cfg.cmdDataFixed] ::
          ((List.range s.cfg.pN).map (fun p => [s.cfg.cmdAddr ||| BitVec.ofNat 8 p, tx p]) ++ [[ctrl]])
    hostOpcode .refresh = some 0x30#8 ∧
    (s.bus.sessOpen = false →
      ∃ (t : State) (frames : List (List (Byte × Bool))), exec .refresh s = .next t ∧
        frames.map (fun f => f.map Prod.fst) = sent ∧
        (∀ (k : Nat) (a x : Bool), (frames.flatten.map Prod.snd)[k]? = some a → s.bus.acks[k]? = some x → a = x) ∧
        t.bus.trace = s.bus.trace ++ frames.flatMap sentFrame ∧
        (FrameReader.idle.read (frames.flatMap sentFrame)).frames = frames ∧
        (FrameReader.idle.read (frames.flatMap sentFrame)).malformed = false ∧
        (FrameReader.idle.read (frames.flatMap sentFrame)).inFrame = false ∧
        t = { s with
          bus := { s.bus with
            clkLvl := true, dioDir := .out, dioLvl := true, sessOpen := false, emitted := t.bus.emitted
            acks := s.bus.acks.drop frames.flatten.length, samples := s.bus.samples + frames.flatten.length }
          results := s.results ++ [.ack (frames.flatten.any Prod.snd)] }) ∧
    (s.bus.sessOpen = true →
      exec .refresh s = .next { s with fault := .f3FrameInSession, faultRecord := some ⟨0x30#8, none⟩ })

/-- R81, R99: a refresh's number of events: 14 for each frame, 47 for each byte, and one more for each byte that is
acknowledged. -/
def Obligations.RefreshEventCount : Prop :=
  ∀ s : State, s.bus.sessOpen = false →
    let frames := match s.cfg.addrMode with
      | .auto => 3
      | .fixed => s.cfg.pN + 2
    let bytes := match s.cfg.addrMode with
      | .auto => s.cfg.pN + 3
      | .fixed => 2 * s.cfg.pN + 2
    ∃ t e, exec .refresh s = .next t ∧ t.bus.trace = s.bus.trace ++ e ∧ (sampledAcks e).length = bytes ∧
      e.length = 14 * frames + 47 * bytes + (sampledAcks e).count false

/-! ## Animations (43_animator.md) -/

/-- R101: an animation operation of a kind that is not running starts it: the kind, the interval, the time, the window at
0 and the level saved; no step, no wire event, no other change. A running animation of another kind is replaced. -/
def Obligations.AnimationStartArmsTheTimer : Prop :=
  ∀ (s : State) (d now : Millis),
    ∀ p ∈ [(Instr.blink d now, AnimKind.blink), (.fadeOut d now, .fadeOut), (.fadeIn d now, .fadeIn),
        (.scroll d now, .scroll)],
      s.anim.kind ≠ p.2 →
        exec p.1 s =
          .next { s with
            anim := { kind := p.2, interval := d, last := now, saved := s.lvl }
            disp := { s.disp with win := 0 }
            results := s.results ++ [.none] }

/-- R100, R101: a tick before the stored interval has elapsed, counted modulo 2^32 from the last trigger, does nothing
and returns NONE, whatever its own interval operand and even while a session is open. -/
def Obligations.EarlyTickDoesNothing : Prop :=
  ∀ (s : State) (d now : Millis),
    (now.toNat + 2 ^ 32 - s.anim.last.toNat) % 2 ^ 32 < s.anim.interval.toNat →
    ∀ p ∈ [(Instr.blink d now, AnimKind.blink), (.fadeOut d now, .fadeOut), (.fadeIn d now, .fadeIn),
        (.scroll d now, .scroll)],
      s.anim.kind = p.2 → exec p.1 s = .next { s with results := s.results ++ [.none] }

/-- R103, R107: a due blink tick turns the display off and saves the level, or restores the saved level from off, sets
the trigger time, and then does what REFRESH does with that state. -/
def Obligations.BlinkTickToggles : Prop :=
  ∀ (s : State) (d now : Millis), s.anim.kind = .blink → s.dueAt now → s.bus.sessOpen = false →
    let u := if s.lvl = 0#4 then { s with lvl := s.anim.saved, anim := { s.anim with last := now } }
      else { s with lvl := 0#4, anim := { s.anim with last := now, saved := s.lvl } }
    ∃ t, exec (.blink d now) s = .next t ∧ exec .refresh u = .next t ∧
      t = { u with bus := t.bus, results := t.results }

/-- R104, R108: a due fade-out tick lowers the level by one, not below 1, ends the fade when the level is then at most 1,
sets the trigger time, and then does what REFRESH does with that state. -/
def Obligations.FadeOutTickLowersTheLevel : Prop :=
  ∀ (s : State) (d now : Millis), s.anim.kind = .fadeOut → s.dueAt now → s.bus.sessOpen = false →
    ∃ t l k, exec (.fadeOut d now) s = .next t ∧
      l.toNat = (if 1 < s.lvl.toNat then s.lvl.toNat - 1 else s.lvl.toNat) ∧
      k = (if l.toNat ≤ 1 then .idle else .fadeOut) ∧
      exec .refresh { s with lvl := l, anim := { s.anim with kind := k, last := now } } = .next t ∧
      t = { s with lvl := l, anim := { s.anim with kind := k, last := now }, bus := t.bus, results := t.results }

/-- R105, R109: a due fade-in tick raises the level by one, not above 8, ends the fade when the level is then 8, sets the
trigger time, and then does what REFRESH does with that state. -/
def Obligations.FadeInTickRaisesTheLevel : Prop :=
  ∀ (s : State) (d now : Millis), s.anim.kind = .fadeIn → s.dueAt now → s.bus.sessOpen = false →
    ∃ t l k, exec (.fadeIn d now) s = .next t ∧
      l.toNat = (if s.lvl.toNat < 8 then s.lvl.toNat + 1 else s.lvl.toNat) ∧
      k = (if l.toNat = 8 then .idle else .fadeIn) ∧
      exec .refresh { s with lvl := l, anim := { s.anim with kind := k, last := now } } = .next t ∧
      t = { s with lvl := l, anim := { s.anim with kind := k, last := now }, bus := t.bus, results := t.results }

/-- R106, R110: a due scroll tick advances the window by one, or ends the scroll with the window at 0 when the index then
exceeds the content length, sets the trigger time, and then does what REFRESH does with that state. -/
def Obligations.ScrollTickAdvancesTheWindow : Prop :=
  ∀ (s : State) (d now : Millis), s.anim.kind = .scroll → s.dueAt now → s.bus.sessOpen = false →
    let u := if s.disp.len < s.disp.win + 1
      then { s with disp := { s.disp with win := 0 }, anim := { s.anim with kind := .idle, last := now } }
      else { s with disp := { s.disp with win := s.disp.win + 1 }, anim := { s.anim with last := now } }
    ∃ t, exec (.scroll d now) s = .next t ∧ exec .refresh u = .next t ∧
      t = { u with bus := t.bus, results := t.results }

/-- R111: RESETANIM clears the animator and the window, in any state and with a session open too, and changes nothing
else. -/
def Obligations.ResetAnimClearsTheAnimator : Prop :=
  ∀ s : State,
    hostOpcode .resetAnim = some 0x44#8 ∧
    exec .resetAnim s =
      .next { s with
        anim := { kind := .idle, interval := 0#32, last := 0#32, saved := 0#4 }
        disp := { s.disp with win := 0 }
        results := s.results ++ [.none] }

/-- R112: the complete transition relation of `anim_kind`, with which transitions re-arm the timer and which send a
refresh; a due tick with a session open faults instead. No other operation changes `anim_kind`. -/
def Obligations.AnimationKindTransitions : Prop :=
  ∀ (i : Instr) (s t : State), exec i s = .next t →
    let starts := fun (k : AnimKind) (d now : Millis) =>
      s.anim.kind ≠ k → t.anim.kind = k ∧ t.anim.interval = d ∧ t.anim.last = now ∧ t.bus = s.bus
    let waits := fun (k : AnimKind) (now : Millis) => s.anim.kind = k → ¬ s.dueAt now → t.anim = s.anim ∧ t.bus = s.bus
    let faults := fun (k : AnimKind) (now : Millis) =>
      s.anim.kind = k → s.dueAt now → s.bus.sessOpen = true →
        t.fault = .f3FrameInSession ∧ t.anim = s.anim ∧ t.bus = s.bus
    let steps := fun (k : AnimKind) (now : Millis) => s.anim.kind = k ∧ s.dueAt now ∧ s.bus.sessOpen = false
    match i with
    | .blink d now =>
      starts .blink d now ∧ waits .blink now ∧ faults .blink now ∧
        (steps .blink now → t.anim.kind = .blink ∧ s.bus.samples < t.bus.samples)
    | .fadeOut d now =>
      starts .fadeOut d now ∧ waits .fadeOut now ∧ faults .fadeOut now ∧
        (steps .fadeOut now →
          (t.anim.kind = if t.lvl.toNat ≤ 1 then .idle else .fadeOut) ∧ s.bus.samples < t.bus.samples)
    | .fadeIn d now =>
      starts .fadeIn d now ∧ waits .fadeIn now ∧ faults .fadeIn now ∧
        (steps .fadeIn now →
          (t.anim.kind = if t.lvl.toNat = 8 then .idle else .fadeIn) ∧ s.bus.samples < t.bus.samples)
    | .scroll d now =>
      starts .scroll d now ∧ waits .scroll now ∧ faults .scroll now ∧
        (steps .scroll now →
          (if s.disp.win + 1 ≤ s.disp.len then t.anim.kind = .scroll else t.anim.kind = .idle ∧ t.disp.win = 0) ∧
            s.bus.samples < t.bus.samples)
    | .resetAnim => t.anim.kind = .idle ∧ t.bus = s.bus
    | _ => t.anim.kind = s.anim.kind

/-- R103: two due blink ticks in a row from a lit display turn it off and restore its
level. -/
def Obligations.TwoBlinkTicksRestoreTheLevel : Prop :=
  ∀ (s : State) (d₁ d₂ n₁ n₂ : Millis), s.Running → s.anim.kind = .blink → s.bus.sessOpen = false → s.lvl ≠ 0#4 →
    dueTimes s.anim.interval s.anim.last [n₁, n₂] →
    s.pending = [encode (.blink d₁ n₁), encode (.blink d₂ n₂)] →
    ∃ t u, step s = .next t ∧ step t = .next u ∧ t.lvl = 0#4 ∧ u.lvl = s.lvl ∧ u.anim.kind = .blink ∧
      u.anim.last = n₂ ∧ u.disp = s.disp

/-- R104, R108 and W8 of 95_test_vectors.md: due fade-out ticks from level l lower it by one each, never below 1, and the
(l - 1)-th reaches level 1 and ends the fade. -/
def Obligations.FadeOutReachesTheFloor : Prop :=
  ∀ (s : State) (ticks : List (Millis × Millis)), s.Running → s.anim.kind = .fadeOut → s.bus.sessOpen = false →
    2 ≤ s.lvl.toNat → ticks.length + 1 = s.lvl.toNat →
    dueTimes s.anim.interval s.anim.last (ticks.map Prod.snd) →
    s.pending = ticks.map (fun p => encode (.fadeOut p.1 p.2)) →
    ∀ j, j ≤ ticks.length →
      ∃ t, steps j s = .next t ∧ t.lvl.toNat = s.lvl.toNat - j ∧ 1 ≤ t.lvl.toNat ∧
        t.anim.kind = (if j = ticks.length then .idle else .fadeOut)

/-- R105, R109 and W8 of 95_test_vectors.md: due fade-in ticks from level l raise it by one each, never above 8, and the
(8 - l)-th reaches level 8 and ends the fade. -/
def Obligations.FadeInReachesTheTop : Prop :=
  ∀ (s : State) (ticks : List (Millis × Millis)), s.Running → s.anim.kind = .fadeIn → s.bus.sessOpen = false →
    s.lvl.toNat ≤ 7 → ticks.length + s.lvl.toNat = 8 →
    dueTimes s.anim.interval s.anim.last (ticks.map Prod.snd) →
    s.pending = ticks.map (fun p => encode (.fadeIn p.1 p.2)) →
    ∀ j, j ≤ ticks.length →
      ∃ t, steps j s = .next t ∧ t.lvl.toNat = s.lvl.toNat + j ∧ t.lvl.toNat ≤ 8 ∧
        t.anim.kind = (if j = ticks.length then .idle else .fadeIn)

/-- R106 and W7 of 95_test_vectors.md: from the start of a scroll over content of length L, exactly L + 1 due ticks return
the animator to IDLE with the window at 0; after j of them before the last, the window is at j. -/
def Obligations.ScrollEndsAfterContentLengthPlusOneTicks : Prop :=
  ∀ (s : State) (ticks : List (Millis × Millis)), s.Running → s.anim.kind = .scroll → s.bus.sessOpen = false →
    s.disp.win = 0 → ticks.length = s.disp.len + 1 →
    dueTimes s.anim.interval s.anim.last (ticks.map Prod.snd) →
    s.pending = ticks.map (fun p => encode (.scroll p.1 p.2)) →
    (∀ j, j ≤ s.disp.len → ∃ t, steps j s = .next t ∧ t.anim.kind = .scroll ∧ t.disp.win = j) ∧
    ∃ t, steps (s.disp.len + 1) s = .next t ∧ t.anim.kind = .idle ∧ t.disp.win = 0 ∧ t.disp.buf = s.disp.buf
end

