-- ==== Sys2Proof/Laws/State.lean ====
section
/-! SUPPORT. One lemma for each field under each named update of the state and of the lines, true by rfl, so that no later
proof unfolds a record update. -/

namespace Sys2Proof.Machine

/-! ### Bus.wireClk -/

@[simp] theorem Bus.wireClk_clkLvl (v : Bool) (b : Bus) : (b.wireClk v).clkLvl = v := rfl
@[simp] theorem Bus.wireClk_dioDir (v : Bool) (b : Bus) : (b.wireClk v).dioDir = b.dioDir := rfl
@[simp] theorem Bus.wireClk_dioLvl (v : Bool) (b : Bus) : (b.wireClk v).dioLvl = b.dioLvl := rfl
@[simp] theorem Bus.wireClk_sessOpen (v : Bool) (b : Bus) : (b.wireClk v).sessOpen = b.sessOpen := rfl
@[simp] theorem Bus.wireClk_emitted (v : Bool) (b : Bus) : (b.wireClk v).emitted = .clk v :: b.emitted := rfl
@[simp] theorem Bus.wireClk_acks (v : Bool) (b : Bus) : (b.wireClk v).acks = b.acks := rfl
@[simp] theorem Bus.wireClk_samples (v : Bool) (b : Bus) : (b.wireClk v).samples = b.samples := rfl

/-! ### Bus.wireDio -/

@[simp] theorem Bus.wireDio_clkLvl (v : Bool) (b : Bus) : (b.wireDio v).clkLvl = b.clkLvl := rfl
@[simp] theorem Bus.wireDio_dioDir (v : Bool) (b : Bus) : (b.wireDio v).dioDir = b.dioDir := rfl
@[simp] theorem Bus.wireDio_dioLvl (v : Bool) (b : Bus) : (b.wireDio v).dioLvl = v := rfl
@[simp] theorem Bus.wireDio_sessOpen (v : Bool) (b : Bus) : (b.wireDio v).sessOpen = b.sessOpen := rfl
@[simp] theorem Bus.wireDio_emitted (v : Bool) (b : Bus) : (b.wireDio v).emitted = .dio v :: b.emitted := rfl
@[simp] theorem Bus.wireDio_acks (v : Bool) (b : Bus) : (b.wireDio v).acks = b.acks := rfl
@[simp] theorem Bus.wireDio_samples (v : Bool) (b : Bus) : (b.wireDio v).samples = b.samples := rfl

/-! ### Bus.dirDio -/

@[simp] theorem Bus.dirDio_clkLvl (d : Dir) (b : Bus) : (b.dirDio d).clkLvl = b.clkLvl := rfl
@[simp] theorem Bus.dirDio_dioDir (d : Dir) (b : Bus) : (b.dirDio d).dioDir = d := rfl
@[simp] theorem Bus.dirDio_dioLvl (d : Dir) (b : Bus) : (b.dirDio d).dioLvl = b.dioLvl := rfl
@[simp] theorem Bus.dirDio_sessOpen (d : Dir) (b : Bus) : (b.dirDio d).sessOpen = b.sessOpen := rfl
@[simp] theorem Bus.dirDio_emitted (d : Dir) (b : Bus) : (b.dirDio d).emitted = .dir d :: b.emitted := rfl
@[simp] theorem Bus.dirDio_acks (d : Dir) (b : Bus) : (b.dirDio d).acks = b.acks := rfl
@[simp] theorem Bus.dirDio_samples (d : Dir) (b : Bus) : (b.dirDio d).samples = b.samples := rfl

/-! ### Bus.hold -/

@[simp] theorem Bus.hold_clkLvl (t : TimeParam) (b : Bus) : (b.hold t).clkLvl = b.clkLvl := rfl
@[simp] theorem Bus.hold_dioDir (t : TimeParam) (b : Bus) : (b.hold t).dioDir = b.dioDir := rfl
@[simp] theorem Bus.hold_dioLvl (t : TimeParam) (b : Bus) : (b.hold t).dioLvl = b.dioLvl := rfl
@[simp] theorem Bus.hold_sessOpen (t : TimeParam) (b : Bus) : (b.hold t).sessOpen = b.sessOpen := rfl
@[simp] theorem Bus.hold_emitted (t : TimeParam) (b : Bus) : (b.hold t).emitted = .hold t :: b.emitted := rfl
@[simp] theorem Bus.hold_acks (t : TimeParam) (b : Bus) : (b.hold t).acks = b.acks := rfl
@[simp] theorem Bus.hold_samples (t : TimeParam) (b : Bus) : (b.hold t).samples = b.samples := rfl

/-! ### Bus.sampleDio -/

@[simp] theorem Bus.sampleDio_fst (b : Bus) : b.sampleDio.1 = b.nextAck := rfl
@[simp] theorem Bus.sampleDio_clkLvl (b : Bus) : b.sampleDio.2.clkLvl = b.clkLvl := rfl
@[simp] theorem Bus.sampleDio_dioDir (b : Bus) : b.sampleDio.2.dioDir = b.dioDir := rfl
@[simp] theorem Bus.sampleDio_dioLvl (b : Bus) : b.sampleDio.2.dioLvl = b.dioLvl := rfl
@[simp] theorem Bus.sampleDio_sessOpen (b : Bus) : b.sampleDio.2.sessOpen = b.sessOpen := rfl
@[simp] theorem Bus.sampleDio_emitted (b : Bus) : b.sampleDio.2.emitted = .sample b.nextAck :: b.emitted := rfl
@[simp] theorem Bus.sampleDio_acks (b : Bus) : b.sampleDio.2.acks = b.acks.tail := rfl
@[simp] theorem Bus.sampleDio_samples (b : Bus) : b.sampleDio.2.samples = b.samples + 1 := rfl

/-! ### State.refuse -/

@[simp] theorem State.refuse_cfg (s : State) : (s.refuse).cfg = s.cfg := rfl
@[simp] theorem State.refuse_bus (s : State) : (s.refuse).bus = s.bus := rfl
@[simp] theorem State.refuse_disp (s : State) : (s.refuse).disp = s.disp := rfl
@[simp] theorem State.refuse_lvl (s : State) : (s.refuse).lvl = s.lvl := rfl
@[simp] theorem State.refuse_anim (s : State) : (s.refuse).anim = s.anim := rfl
@[simp] theorem State.refuse_fault (s : State) : (s.refuse).fault = s.fault := rfl
@[simp] theorem State.refuse_faultRecord (s : State) : (s.refuse).faultRecord = s.faultRecord := rfl
@[simp] theorem State.refuse_refused (s : State) : (s.refuse).refused = true := rfl
@[simp] theorem State.refuse_resetReq (s : State) : (s.refuse).resetReq = s.resetReq := rfl
@[simp] theorem State.refuse_pending (s : State) : (s.refuse).pending = s.pending := rfl
@[simp] theorem State.refuse_results (s : State) : (s.refuse).results = s.results := rfl

/-! ### State.trigger -/

@[simp] theorem State.trigger_cfg (s : State) (now : Millis) : (s.trigger now).cfg = s.cfg := rfl
@[simp] theorem State.trigger_bus (s : State) (now : Millis) : (s.trigger now).bus = s.bus := rfl
@[simp] theorem State.trigger_disp (s : State) (now : Millis) : (s.trigger now).disp = s.disp := rfl
@[simp] theorem State.trigger_lvl (s : State) (now : Millis) : (s.trigger now).lvl = s.lvl := rfl
@[simp] theorem State.trigger_anim (s : State) (now : Millis) : (s.trigger now).anim = { s.anim with last := now } := rfl
@[simp] theorem State.trigger_fault (s : State) (now : Millis) : (s.trigger now).fault = s.fault := rfl
@[simp] theorem State.trigger_faultRecord (s : State) (now : Millis) : (s.trigger now).faultRecord = s.faultRecord := rfl
@[simp] theorem State.trigger_refused (s : State) (now : Millis) : (s.trigger now).refused = s.refused := rfl
@[simp] theorem State.trigger_resetReq (s : State) (now : Millis) : (s.trigger now).resetReq = s.resetReq := rfl
@[simp] theorem State.trigger_pending (s : State) (now : Millis) : (s.trigger now).pending = s.pending := rfl
@[simp] theorem State.trigger_results (s : State) (now : Millis) : (s.trigger now).results = s.results := rfl

/-! ### State.startAnim -/

@[simp] theorem State.startAnim_cfg (s : State) (k : AnimKind) (d now : Millis) : (s.startAnim k d now).cfg = s.cfg := rfl
@[simp] theorem State.startAnim_bus (s : State) (k : AnimKind) (d now : Millis) : (s.startAnim k d now).bus = s.bus := rfl
@[simp] theorem State.startAnim_disp (s : State) (k : AnimKind) (d now : Millis) : (s.startAnim k d now).disp = { s.disp with win := 0 } := rfl
@[simp] theorem State.startAnim_lvl (s : State) (k : AnimKind) (d now : Millis) : (s.startAnim k d now).lvl = s.lvl := rfl
@[simp] theorem State.startAnim_anim (s : State) (k : AnimKind) (d now : Millis) : (s.startAnim k d now).anim = { kind := k, interval := d, last := now, saved := s.lvl } := rfl
@[simp] theorem State.startAnim_fault (s : State) (k : AnimKind) (d now : Millis) : (s.startAnim k d now).fault = s.fault := rfl
@[simp] theorem State.startAnim_faultRecord (s : State) (k : AnimKind) (d now : Millis) : (s.startAnim k d now).faultRecord = s.faultRecord := rfl
@[simp] theorem State.startAnim_refused (s : State) (k : AnimKind) (d now : Millis) : (s.startAnim k d now).refused = s.refused := rfl
@[simp] theorem State.startAnim_resetReq (s : State) (k : AnimKind) (d now : Millis) : (s.startAnim k d now).resetReq = s.resetReq := rfl
@[simp] theorem State.startAnim_pending (s : State) (k : AnimKind) (d now : Millis) : (s.startAnim k d now).pending = s.pending := rfl
@[simp] theorem State.startAnim_results (s : State) (k : AnimKind) (d now : Millis) : (s.startAnim k d now).results = s.results := rfl

/-! ### State.resetInRun -/

@[simp] theorem State.resetInRun_cfg (s : State) :
    s.resetInRun.cfg = s.cfg := rfl
@[simp] theorem State.resetInRun_bus (s : State) :
    s.resetInRun.bus = { (State.resetWith s.cfg).bus with emitted := s.bus.emitted, acks := s.bus.acks, samples := s.bus.samples } := rfl
@[simp] theorem State.resetInRun_disp (s : State) :
    s.resetInRun.disp = (State.resetWith s.cfg).disp := rfl
@[simp] theorem State.resetInRun_lvl (s : State) :
    s.resetInRun.lvl = s.cfg.resetLevel := rfl
@[simp] theorem State.resetInRun_anim (s : State) :
    s.resetInRun.anim = (State.resetWith s.cfg).anim := rfl
@[simp] theorem State.resetInRun_fault (s : State) :
    s.resetInRun.fault = s.fault := rfl
@[simp] theorem State.resetInRun_faultRecord (s : State) :
    s.resetInRun.faultRecord = s.faultRecord := rfl
@[simp] theorem State.resetInRun_refused (s : State) :
    s.resetInRun.refused = s.refused := rfl
@[simp] theorem State.resetInRun_resetReq (s : State) :
    s.resetInRun.resetReq = false := rfl
@[simp] theorem State.resetInRun_pending (s : State) :
    s.resetInRun.pending = s.pending := rfl
@[simp] theorem State.resetInRun_results (s : State) :
    s.resetInRun.results = s.results := rfl

/-! ### State.stepBlink -/

@[simp] theorem State.stepBlink_cfg (s : State) :
    s.stepBlink.cfg = s.cfg := rfl
@[simp] theorem State.stepBlink_bus (s : State) :
    s.stepBlink.bus = s.bus := rfl
@[simp] theorem State.stepBlink_disp (s : State) :
    s.stepBlink.disp = s.disp := rfl
@[simp] theorem State.stepBlink_lvl (s : State) :
    s.stepBlink.lvl = blinkLevel s.lvl s.anim.saved := rfl
@[simp] theorem State.stepBlink_anim (s : State) :
    s.stepBlink.anim = { s.anim with saved := blinkSaved s.lvl s.anim.saved } := rfl
@[simp] theorem State.stepBlink_fault (s : State) :
    s.stepBlink.fault = s.fault := rfl
@[simp] theorem State.stepBlink_faultRecord (s : State) :
    s.stepBlink.faultRecord = s.faultRecord := rfl
@[simp] theorem State.stepBlink_refused (s : State) :
    s.stepBlink.refused = s.refused := rfl
@[simp] theorem State.stepBlink_resetReq (s : State) :
    s.stepBlink.resetReq = s.resetReq := rfl
@[simp] theorem State.stepBlink_pending (s : State) :
    s.stepBlink.pending = s.pending := rfl
@[simp] theorem State.stepBlink_results (s : State) :
    s.stepBlink.results = s.results := rfl

/-! ### State.stepFadeOut -/

@[simp] theorem State.stepFadeOut_cfg (s : State) :
    s.stepFadeOut.cfg = s.cfg := rfl
@[simp] theorem State.stepFadeOut_bus (s : State) :
    s.stepFadeOut.bus = s.bus := rfl
@[simp] theorem State.stepFadeOut_disp (s : State) :
    s.stepFadeOut.disp = s.disp := rfl
@[simp] theorem State.stepFadeOut_lvl (s : State) :
    s.stepFadeOut.lvl = fadeOutLevel s.lvl := rfl
@[simp] theorem State.stepFadeOut_anim (s : State) :
    s.stepFadeOut.anim = { s.anim with kind := if (fadeOutLevel s.lvl).toNat ≤ fadeFloor.toNat then .idle else s.anim.kind } := rfl
@[simp] theorem State.stepFadeOut_fault (s : State) :
    s.stepFadeOut.fault = s.fault := rfl
@[simp] theorem State.stepFadeOut_faultRecord (s : State) :
    s.stepFadeOut.faultRecord = s.faultRecord := rfl
@[simp] theorem State.stepFadeOut_refused (s : State) :
    s.stepFadeOut.refused = s.refused := rfl
@[simp] theorem State.stepFadeOut_resetReq (s : State) :
    s.stepFadeOut.resetReq = s.resetReq := rfl
@[simp] theorem State.stepFadeOut_pending (s : State) :
    s.stepFadeOut.pending = s.pending := rfl
@[simp] theorem State.stepFadeOut_results (s : State) :
    s.stepFadeOut.results = s.results := rfl

/-! ### State.stepFadeIn -/

@[simp] theorem State.stepFadeIn_cfg (s : State) :
    s.stepFadeIn.cfg = s.cfg := rfl
@[simp] theorem State.stepFadeIn_bus (s : State) :
    s.stepFadeIn.bus = s.bus := rfl
@[simp] theorem State.stepFadeIn_disp (s : State) :
    s.stepFadeIn.disp = s.disp := rfl
@[simp] theorem State.stepFadeIn_lvl (s : State) :
    s.stepFadeIn.lvl = fadeInLevel s.lvl := rfl
@[simp] theorem State.stepFadeIn_anim (s : State) :
    s.stepFadeIn.anim = { s.anim with kind := if fadeInLevel s.lvl = topLevel then .idle else s.anim.kind } := rfl
@[simp] theorem State.stepFadeIn_fault (s : State) :
    s.stepFadeIn.fault = s.fault := rfl
@[simp] theorem State.stepFadeIn_faultRecord (s : State) :
    s.stepFadeIn.faultRecord = s.faultRecord := rfl
@[simp] theorem State.stepFadeIn_refused (s : State) :
    s.stepFadeIn.refused = s.refused := rfl
@[simp] theorem State.stepFadeIn_resetReq (s : State) :
    s.stepFadeIn.resetReq = s.resetReq := rfl
@[simp] theorem State.stepFadeIn_pending (s : State) :
    s.stepFadeIn.pending = s.pending := rfl
@[simp] theorem State.stepFadeIn_results (s : State) :
    s.stepFadeIn.results = s.results := rfl

/-! ### State.stepScroll -/

@[simp] theorem State.stepScroll_cfg (s : State) :
    s.stepScroll.cfg = s.cfg := rfl
@[simp] theorem State.stepScroll_bus (s : State) :
    s.stepScroll.bus = s.bus := rfl
@[simp] theorem State.stepScroll_disp (s : State) :
    s.stepScroll.disp = { s.disp with win := if s.disp.len < s.disp.win + 1 then 0 else s.disp.win + 1 } := rfl
@[simp] theorem State.stepScroll_lvl (s : State) :
    s.stepScroll.lvl = s.lvl := rfl
@[simp] theorem State.stepScroll_anim (s : State) :
    s.stepScroll.anim = { s.anim with kind := if s.disp.len < s.disp.win + 1 then .idle else s.anim.kind } := rfl
@[simp] theorem State.stepScroll_fault (s : State) :
    s.stepScroll.fault = s.fault := rfl
@[simp] theorem State.stepScroll_faultRecord (s : State) :
    s.stepScroll.faultRecord = s.faultRecord := rfl
@[simp] theorem State.stepScroll_refused (s : State) :
    s.stepScroll.refused = s.refused := rfl
@[simp] theorem State.stepScroll_resetReq (s : State) :
    s.stepScroll.resetReq = s.resetReq := rfl
@[simp] theorem State.stepScroll_pending (s : State) :
    s.stepScroll.pending = s.pending := rfl
@[simp] theorem State.stepScroll_results (s : State) :
    s.stepScroll.results = s.results := rfl

end Sys2Proof.Machine
end

