-- ==== Sys2Proof/Laws/Bus.lean ====
section
/-! SUPPORT. What the transport's operations do to the lines, said once for each: the levels they leave, the events they
emit (R74 to R76, R81), and what a listener reads from those events (R42). -/

namespace Sys2Proof.Machine

/-! ### One operation -/

/-- R74: what a start condition does. -/
theorem Bus.startFrame_eq (b : Bus) :
    b.startFrame =
      { b with
        clkLvl := true, dioDir := .out, dioLvl := false, sessOpen := true
        emitted := beginEvents.reverse ++ b.emitted } := rfl

/-- R75: what a stop condition does. -/
theorem Bus.stopFrame_eq (b : Bus) :
    b.stopFrame =
      { b with clkLvl := true, dioLvl := true, sessOpen := false, emitted := endEvents.reverse ++ b.emitted } := rfl

theorem Bus.bitCell_eq (b : Bus) (v : Bool) :
    b.bitCell v = { b with clkLvl := true, dioLvl := v, emitted := (cellEvents v).reverse ++ b.emitted } := rfl

theorem Bus.ackCell_fst (b : Bus) : b.ackCell.1 = b.nextAck := rfl

theorem Bus.ackCell_snd (b : Bus) :
    b.ackCell.2 =
      { b with
        clkLvl := true, dioDir := .out, dioLvl := b.nextAck, acks := b.acks.tail, samples := b.samples + 1
        emitted := (ackEvents b.nextAck).reverse ++ b.emitted } := by
  have h : b.ackCell.2 =
      ((if b.nextAck then
          { b with
            clkLvl := true, dioDir := .inp, dioLvl := true, acks := b.acks.tail, samples := b.samples + 1
            emitted := .sample b.nextAck :: .dir .inp :: .clk true :: .dio true :: .clk false :: b.emitted }
        else
          Bus.wireDio false
            { b with
              clkLvl := true, dioDir := .inp, dioLvl := true, acks := b.acks.tail, samples := b.samples + 1
              emitted := .sample b.nextAck :: .dir .inp :: .clk true :: .dio true :: .clk false :: b.emitted }).hold
          .tSettle).dirDio .out := rfl
  rw [h]
  cases b.nextAck <;> rfl

@[simp] theorem Bus.shiftByte_fst (x : Byte) (b : Bus) : (b.shiftByte x).1 = b.nextAck := rfl

/-- R76: what shifting a byte does. -/
theorem Bus.shiftByte_snd (x : Byte) (b : Bus) :
    (b.shiftByte x).2 =
      { b with
        clkLvl := true, dioDir := .out, dioLvl := b.nextAck, acks := b.acks.tail, samples := b.samples + 1
        emitted := (byteEvents x b.nextAck).reverse ++ b.emitted } := by
  have h : ∀ (b : Bus) (v : Bool), (b.bitCell v).nextAck = b.nextAck := fun _ _ => rfl
  simp only [Bus.shiftByte, Bus.ackCell_snd, bitsLsbFirst, List.foldl, h]
  simp [Bus.bitCell_eq, byteEvents]

/-! ### Traces in order -/

theorem Bus.startFrame_trace (b : Bus) : b.startFrame.trace = b.trace ++ beginEvents := by
  simp [Bus.trace, Bus.startFrame_eq]

theorem Bus.stopFrame_trace (b : Bus) : b.stopFrame.trace = b.trace ++ endEvents := by
  simp [Bus.trace, Bus.stopFrame_eq]

theorem Bus.shiftByte_trace (x : Byte) (b : Bus) :
    (b.shiftByte x).2.trace = b.trace ++ byteEvents x b.nextAck := by
  simp [Bus.trace, Bus.shiftByte_snd]

/-! ### Sequences of bytes and of frames

`next` n samples further on: the draws a sequence of n bytes gets. -/

/-- The next n acknowledgement draws of the lines, in order. -/
def Bus.draws (b : Bus) : Nat → List Bool
  | 0 => []
  | n + 1 => b.nextAck :: Bus.draws { b with acks := b.acks.tail, samples := b.samples + 1 } n

/-- The chip's side of the lines after n samples. -/
def Bus.afterDraws (b : Bus) (n : Nat) : Bus := { b with acks := b.acks.drop n, samples := b.samples + n }

/-- The draws depend on the chip's side of the lines alone. -/
theorem Bus.draws_congr {b c : Bus} (ha : b.acks = c.acks) (hs : b.samples = c.samples) (n : Nat) :
    b.draws n = c.draws n := by
  induction n generalizing b c with
  | zero => rfl
  | succ n ih =>
    simp only [Bus.draws, Bus.nextAck, ha, hs]
    exact congrArg _ (ih rfl rfl)

@[simp] theorem Bus.draws_length (b : Bus) (n : Nat) : (b.draws n).length = n := by
  induction n generalizing b with
  | zero => rfl
  | succ n ih => simp [Bus.draws, ih]

theorem Bus.draws_add (b : Bus) (m n : Nat) : b.draws (m + n) = b.draws m ++ (b.afterDraws m).draws n := by
  induction m generalizing b with
  | zero => simp [Bus.draws, Bus.afterDraws]
  | succ m ih =>
    rw [show m + 1 + n = (m + n) + 1 by omega]
    simp only [Bus.draws, ih, List.cons_append]
    congr 2
    exact Bus.draws_congr (by simp [Bus.afterDraws]) (by simp [Bus.afterDraws]; omega) n

/-- The draws are the levels the environment fixes, as far as it fixes them. -/
theorem Bus.draws_of_acks {b : Bus} {n k : Nat} {a x : Bool} (ha : (b.draws n)[k]? = some a)
    (hx : b.acks[k]? = some x) : a = x := by
  induction k generalizing b n with
  | zero =>
    cases n with
    | zero => simp [Bus.draws] at ha
    | succ n =>
      cases hb : b.acks with
      | nil => simp [hb] at hx
      | cons y ys => simp_all [Bus.draws, Bus.nextAck]
  | succ k ih =>
    cases n with
    | zero => simp [Bus.draws] at ha
    | succ n =>
      rw [Bus.draws, List.getElem?_cons_succ] at ha
      exact ih ha (by simpa using hx)

/-- The events of a sequence of bytes with their draws. -/
def bytesEvents : List Byte → List Bool → List Event
  | x :: xs, a :: as => byteEvents x a ++ bytesEvents xs as
  | _, _ => []

/-- What shifting a sequence of bytes does. -/
theorem Bus.shiftAll_eq (xs : List Byte) (s : Bool) (b : Bus) (hne : xs ≠ []) :
    Bus.shiftAll xs (s, b) =
      (s || (b.draws xs.length).any id,
       { b with
         clkLvl := true, dioDir := .out, dioLvl := (b.draws xs.length).getLastD b.dioLvl
         acks := b.acks.drop xs.length, samples := b.samples + xs.length
         emitted := (bytesEvents xs (b.draws xs.length)).reverse ++ b.emitted }) := by
  induction xs generalizing s b with
  | nil => exact absurd rfl hne
  | cons x xs ih =>
    rw [Bus.shiftAll]
    by_cases hxs : xs = []
    · subst hxs
      simp [Bus.shiftAll, Bus.shiftByte_snd, Bus.draws, bytesEvents]
    · rw [ih _ _ hxs, Bus.shiftByte_snd]
      have hd : Bus.draws
          { b with
            clkLvl := true, dioDir := .out, dioLvl := b.nextAck, acks := b.acks.tail, samples := b.samples + 1
            emitted := (byteEvents x b.nextAck).reverse ++ b.emitted } xs.length =
          Bus.draws { b with acks := b.acks.tail, samples := b.samples + 1 } xs.length :=
        Bus.draws_congr (by rfl) (by rfl) _
      simp only [hd, List.length_cons, Bus.draws, bytesEvents, List.any_cons, id_eq, Bool.or_assoc,
        List.reverse_append, List.append_assoc, Bus.shiftByte_fst, List.getLastD_cons,
        Nat.add_assoc, Nat.add_comm 1]
      simp

/-- The events of a frame with its draws. -/
def frameEvents (xs : List Byte) (as : List Bool) : List Event := beginEvents ++ bytesEvents xs as ++ endEvents

/-- R64: what a frame of at least one byte does. -/
theorem Bus.frame_eq (xs : List Byte) (s : Bool) (b : Bus) (hne : xs ≠ []) :
    Bus.frame xs (s, b) =
      (s || (b.draws xs.length).any id,
       { b with
         clkLvl := true, dioDir := .out, dioLvl := true, sessOpen := false
         acks := b.acks.drop xs.length, samples := b.samples + xs.length
         emitted := (frameEvents xs (b.draws xs.length)).reverse ++ b.emitted }) := by
  have hd : b.startFrame.draws xs.length = b.draws xs.length := Bus.draws_congr (by rfl) (by rfl) _
  simp only [Bus.frame, Bus.shiftAll_eq _ _ _ hne, hd]
  simp [Bus.stopFrame_eq, Bus.startFrame_eq, frameEvents]

/-- The events of a sequence of frames with their draws. -/
def framesEvents : List (List Byte) → List Bool → List Event
  | [], _ => []
  | f :: fs, as => frameEvents f (as.take f.length) ++ framesEvents fs (as.drop f.length)

/-- How many bytes a sequence of frames has. -/
def byteCount (fs : List (List Byte)) : Nat := (fs.map List.length).sum

/-- R99: what a sequence of frames, each of at least one byte, does. -/
theorem Bus.frames_eq (fs : List (List Byte)) (s : Bool) (b : Bus) (hne : ∀ f ∈ fs, f ≠ []) (hfs : fs ≠ []) :
    Bus.frames fs (s, b) =
      (s || (b.draws (byteCount fs)).any id,
       { b with
         clkLvl := true, dioDir := .out, dioLvl := true, sessOpen := false
         acks := b.acks.drop (byteCount fs), samples := b.samples + byteCount fs
         emitted := (framesEvents fs (b.draws (byteCount fs))).reverse ++ b.emitted }) := by
  induction fs generalizing s b with
  | nil => exact absurd rfl hfs
  | cons f fs ih =>
    have hf := hne f List.mem_cons_self
    have hne' : ∀ g ∈ fs, g ≠ [] := fun g hg => hne g (List.mem_cons_of_mem _ hg)
    have hcount : byteCount (f :: fs) = f.length + byteCount fs := by simp [byteCount]
    rw [Bus.frames, Bus.frame_eq _ _ _ hf]
    by_cases hnil : fs = []
    · subst hnil
      simp [Bus.frames, framesEvents, byteCount, List.take_of_length_le]
    · rw [ih _ _ hne' hnil, hcount, Bus.draws_add]
      have hd : Bus.draws
          { b with
            clkLvl := true, dioDir := .out, dioLvl := true, sessOpen := false, acks := b.acks.drop f.length
            samples := b.samples + f.length
            emitted := (frameEvents f (b.draws f.length)).reverse ++ b.emitted } (byteCount fs) =
          (b.afterDraws f.length).draws (byteCount fs) := Bus.draws_congr (by rfl) (by rfl) _
      simp only [hd, framesEvents]
      simp [Nat.add_assoc, Bool.or_assoc]

/-! ### What a listener reads -/

/-- The bits of a byte, least significant first, make that byte. -/
theorem byteOfBits_bits (x : Byte) : byteOfBits (bitsLsbFirst x) = x := by
  revert x
  decide +kernel

theorem FrameReader.read_append (r : FrameReader) (s t : List Event) : r.read (s ++ t) = (r.read s).read t :=
  List.foldl_append

/-- A listener between byte cells, in a frame or not, on lines that CLK leaves high and the block drives. -/
structure FrameReader.Ready (r : FrameReader) (inFrame : Bool) (line : Bool) : Prop where
  clk : r.clk = true
  dir : r.dir = .out
  latch : r.latch = line
  line : r.line = line
  inFrame : r.inFrame = inFrame
  bits : r.bits = []

/-- R74: a start condition on idle lines opens a frame. -/
theorem FrameReader.read_begin {r : FrameReader} (h : r.Ready false true) :
    r.read beginEvents = { r with latch := false, line := false, inFrame := true, frame := [] } := by
  obtain ⟨clk, latch, dir, line, inFrame, bits, frame, frames, malformed⟩ := r
  obtain ⟨hc, hd, hl, hn, hi, hb⟩ := h
  simp only at hc hd hl hn hi hb
  subst hc hd hl hn hi hb
  simp [FrameReader.read, beginEvents, FrameReader.event, FrameReader.lineTo]

/-- R76: a bit cell shows one bit. -/
theorem FrameReader.read_cell {r : FrameReader} (hf : r.inFrame = true) (hd : r.dir = .out) (v : Bool) :
    r.read (cellEvents v) = { r with clk := true, latch := v, line := v, bits := r.bits ++ [v] } := by
  obtain ⟨clk, latch, dir, line, inFrame, bits, frame, frames, malformed⟩ := r
  simp only at hf hd
  subst hf hd
  simp [FrameReader.read, cellEvents, FrameReader.event, FrameReader.lineTo]

/-- R42: a listener in a frame reads a byte and its draw. -/
theorem FrameReader.read_byte {r : FrameReader} {l : Bool} (h : r.Ready true l) (x : Byte) (a : Bool) :
    r.read (byteEvents x a) = { r with latch := a, line := a, frame := r.frame ++ [(x, a)] } := by
  obtain ⟨clk, latch, dir, line, inFrame, bits, frame, frames, malformed⟩ := r
  obtain ⟨hc, hd, hl, hn, hi, hb⟩ := h
  simp only at hc hd hl hn hi hb
  subst hc hd hl hn hi hb
  have hx : byteOfBits [x[0], x[1], x[2], x[3], x[4], x[5], x[6], x[7]] = x := by
    simpa [bitsLsbFirst] using byteOfBits_bits x
  simp only [byteEvents, FrameReader.read_append, FrameReader.read_cell]
  cases a <;> simp [FrameReader.read, ackEvents, FrameReader.event, FrameReader.lineTo, hx]

/-- R75: a stop condition between byte cells closes the frame. -/
theorem FrameReader.read_end {r : FrameReader} {l : Bool} (h : r.Ready true l) :
    r.read endEvents =
      { r with latch := true, line := true, inFrame := false, frame := [], frames := r.frames ++ [r.frame] } := by
  obtain ⟨clk, latch, dir, line, inFrame, bits, frame, frames, malformed⟩ := r
  obtain ⟨hc, hd, hl, hn, hi, hb⟩ := h
  simp only at hc hd hl hn hi hb
  subst hc hd hl hn hi hb
  simp [FrameReader.read, endEvents, FrameReader.event, FrameReader.lineTo]

/-- A listener in a frame reads a sequence of bytes and their draws. -/
theorem FrameReader.read_bytes {r : FrameReader} {l : Bool} (h : r.Ready true l) (xs : List Byte) (as : List Bool)
    (hlen : xs.length = as.length) :
    r.read (bytesEvents xs as) =
      { r with latch := as.getLastD l, line := as.getLastD l, frame := r.frame ++ xs.zip as } := by
  induction xs generalizing r l as with
  | nil =>
    cases as with
    | nil =>
      have hl := h.latch
      have hn := h.line
      obtain ⟨clk, latch, dir, line, inFrame, bits, frame, frames, malformed⟩ := r
      simp only at hl hn
      simp [bytesEvents, FrameReader.read, hl, hn]
    | cons a as => simp at hlen
  | cons x xs ih =>
    cases as with
    | nil => simp at hlen
    | cons a as =>
      have hready : FrameReader.Ready { r with latch := a, line := a, frame := r.frame ++ [(x, a)] } true a :=
        ⟨h.clk, h.dir, rfl, rfl, h.inFrame, h.bits⟩
      rw [bytesEvents, FrameReader.read_append, FrameReader.read_byte h, ih hready as (by simpa using hlen)]
      simp only [List.getLastD_cons, List.zip_cons_cons, List.append_assoc, List.singleton_append]

/-- R42, R64: a listener at idle lines reads a frame: its bytes with their draws. -/
theorem FrameReader.read_frame {r : FrameReader} (h : r.Ready false true) (xs : List Byte) (as : List Bool)
    (hlen : xs.length = as.length) :
    r.read (frameEvents xs as) = { r with frame := [], frames := r.frames ++ [xs.zip as] } := by
  have hb : FrameReader.Ready { r with latch := false, line := false, inFrame := true, frame := [] } true false :=
    ⟨h.clk, h.dir, rfl, rfl, rfl, h.bits⟩
  have hz : FrameReader.Ready
      { r with latch := as.getLastD false, line := as.getLastD false, inFrame := true, frame := xs.zip as } true
      (as.getLastD false) := ⟨h.clk, h.dir, rfl, rfl, rfl, h.bits⟩
  rw [frameEvents, FrameReader.read_append, FrameReader.read_append, FrameReader.read_begin h,
    FrameReader.read_bytes hb xs as hlen]
  simp only [List.nil_append]
  rw [FrameReader.read_end hz]
  have hl := h.latch
  have hn := h.line
  have hi := h.inFrame
  obtain ⟨clk, latch, dir, line, inFrame, bits, frame, frames, malformed⟩ := r
  simp only at hl hn hi
  simp [hl, hn, hi]

/-- The draws, dealt to the frames they acknowledge. -/
def dealAcks : List (List Byte) → List Bool → List (List (Byte × Bool))
  | [], _ => []
  | f :: fs, as => f.zip (as.take f.length) :: dealAcks fs (as.drop f.length)

/-- R42: a listener at idle lines reads a sequence of frames. -/
theorem FrameReader.read_frames {r : FrameReader} (h : r.Ready false true) (fs : List (List Byte)) (as : List Bool)
    (hlen : as.length = byteCount fs) :
    r.read (framesEvents fs as) =
      { r with frame := if fs = [] then r.frame else [], frames := r.frames ++ dealAcks fs as } := by
  induction fs generalizing r as with
  | nil => simp [framesEvents, FrameReader.read, dealAcks]
  | cons f fs ih =>
    have hcount : byteCount (f :: fs) = f.length + byteCount fs := by simp [byteCount]
    have hready : FrameReader.Ready
        { r with frame := [], frames := r.frames ++ [f.zip (as.take f.length)] } false true :=
      ⟨h.clk, h.dir, h.latch, h.line, h.inFrame, h.bits⟩
    rw [framesEvents, FrameReader.read_append, FrameReader.read_frame h _ _ (by simp; omega),
      ih hready _ (by simp; omega)]
    simp [dealAcks]

/-- The draws, dealt and gathered. -/
theorem dealAcks_draws (fs : List (List Byte)) (as : List Bool) (hlen : as.length = byteCount fs) :
    (dealAcks fs as).flatten.map Prod.snd = as := by
  induction fs generalizing as with
  | nil => simpa [dealAcks, byteCount, eq_comm] using hlen
  | cons f fs ih =>
    have hcount : byteCount (f :: fs) = f.length + byteCount fs := by simp [byteCount]
    rw [dealAcks, List.flatten_cons, List.map_append, ih _ (by simp; omega), List.map_snd_zip (by simp),
      List.take_append_drop]

theorem bytesEvents_eq_flatMap (xs : List Byte) (as : List Bool) :
    bytesEvents xs as = (xs.zip as).flatMap (fun c => byteEvents c.1 c.2) := by
  induction xs generalizing as with
  | nil => rfl
  | cons x xs ih => cases as <;> simp [bytesEvents, ih]

/-- The events of a sequence of frames are those of its frames, each with the draws dealt to it. -/
theorem framesEvents_eq_flatMap (fs : List (List Byte)) (as : List Bool) :
    framesEvents fs as = (dealAcks fs as).flatMap sentFrame := by
  induction fs generalizing as with
  | nil => rfl
  | cons f fs ih =>
    simp [framesEvents, dealAcks, ih, sentFrame, frameEvents, bytesEvents_eq_flatMap]

/-- The bytes of the frames read are the bytes sent. -/
theorem dealAcks_bytes (fs : List (List Byte)) (as : List Bool) (hlen : as.length = byteCount fs) :
    (dealAcks fs as).map (fun f => f.map Prod.fst) = fs := by
  induction fs generalizing as with
  | nil => rfl
  | cons f fs ih =>
    have hcount : byteCount (f :: fs) = f.length + byteCount fs := by simp [byteCount]
    rw [dealAcks, List.map_cons, ih _ (by simp; omega), List.map_fst_zip (by simp; omega)]

/-! ### Traces apart from the acknowledgements (R79) -/

/-- R79: an acknowledgement changes its sample and the `DIO(0)` after it, and no other event. -/
theorem withoutAcks_byte (x : Byte) (a : Bool) (rest : List Event) :
    withoutAcks (byteEvents x a ++ rest) = byteEvents x true ++ withoutAcks rest := by
  cases a <;> simp [byteEvents, cellEvents, ackEvents, withoutAcks]

/-- R79: the events of a sequence of bytes, whatever its draws are. -/
theorem withoutAcks_bytes (xs : List Byte) (as : List Bool) (hlen : xs.length = as.length) (rest : List Event) :
    withoutAcks (bytesEvents xs as ++ rest) = bytesEvents xs (xs.map fun _ => true) ++ withoutAcks rest := by
  induction xs generalizing as with
  | nil => simp [bytesEvents]
  | cons x xs ih =>
    cases as with
    | nil => simp at hlen
    | cons a as =>
      rw [bytesEvents, List.append_assoc, withoutAcks_byte, ih as (by simpa using hlen)]
      simp [bytesEvents]

/-- R79: the events of a sequence of frames, whatever its draws are. -/
theorem withoutAcks_frames (fs : List (List Byte)) (as : List Bool) (hlen : as.length = byteCount fs) :
    withoutAcks (framesEvents fs as) = framesEvents fs (List.replicate (byteCount fs) true) := by
  induction fs generalizing as with
  | nil => rfl
  | cons f fs ih =>
    have hcount : byteCount (f :: fs) = f.length + byteCount fs := by simp [byteCount]
    have hbegin (rest : List Event) : withoutAcks (beginEvents ++ rest) = beginEvents ++ withoutAcks rest := by
      simp [beginEvents, withoutAcks]
    have hend (rest : List Event) : withoutAcks (endEvents ++ rest) = endEvents ++ withoutAcks rest := by
      simp [endEvents, withoutAcks]
    rw [framesEvents, framesEvents, hcount, frameEvents, List.append_assoc, List.append_assoc, hbegin,
      withoutAcks_bytes _ _ (by simp; omega), hend, ih _ (by simp; omega)]
    simp [frameEvents, List.map_const']

end Sys2Proof.Machine
end

