-- ==== Sys2Proof/Laws/Decode.lean ====
section
/-! SUPPORT. What the operand readers and the wire classes give (R59 to R63, R66): each written operand reads back as what
was written, and what reads is what was written. -/

namespace Sys2Proof

/-! ### Integers in a range -/

theorem Operand.intIn_ofInt {lo hi n : Int} (h1 : lo ≤ n) (h2 : n < hi) : (Operand.ofInt n).intIn lo hi = some n := by
  simp [Operand.ofInt, Operand.intIn, Rat.ofInt, h1, h2]

theorem Operand.intIn_some {lo hi : Int} {o : Operand} {n : Int} (h : o.intIn lo hi = some n) :
    o = .ofInt n ∧ lo ≤ n ∧ n < hi := by
  cases o with
  | syms l => cases h
  | num q =>
    simp only [Operand.intIn] at h
    split at h
    · rename_i hq
      cases h
      refine ⟨?_, hq.2⟩
      rw [Operand.ofInt]
      congr 1
      exact Rat.ext rfl hq.1
    · cases h

/-- R66: a number that no integer of the range is, is not read. -/
theorem Operand.intIn_num_none {lo hi : Int} {q : Rat} (h : ¬ ∃ n : Int, lo ≤ n ∧ n < hi ∧ q = n) :
    (Operand.num q).intIn lo hi = none := by
  simp only [Operand.intIn]
  rw [if_neg]
  rintro ⟨hd, h1, h2⟩
  exact h ⟨q.num, h1, h2, ((Rat.den_eq_one_iff q).1 hd).symm⟩

/-! ### One lemma for each operand type, and its converse -/

@[simp] theorem Operand.asU8_ofUnsigned (b : Byte) : (Operand.ofUnsigned b).asU8 = some b := by
  have := b.isLt
  rw [Operand.asU8, Operand.ofUnsigned, Operand.intIn_ofInt (by omega) (by omega)]
  simp

theorem Operand.asU8_some {o : Operand} {b : Byte} (h : o.asU8 = some b) : o = .ofUnsigned b := by
  obtain ⟨n, hn, rfl⟩ := Option.map_eq_some_iff.1 h
  obtain ⟨rfl, h0, h1⟩ := Operand.intIn_some hn
  rw [Operand.ofUnsigned, BitVec.toNat_ofInt]
  congr 1
  omega

@[simp] theorem Operand.asU32_ofUnsigned (b : Millis) : (Operand.ofUnsigned b).asU32 = some b := by
  have := b.isLt
  rw [Operand.asU32, Operand.ofUnsigned, Operand.intIn_ofInt (by omega) (by omega)]
  simp

theorem Operand.asU32_some {o : Operand} {b : Millis} (h : o.asU32 = some b) : o = .ofUnsigned b := by
  obtain ⟨n, hn, rfl⟩ := Option.map_eq_some_iff.1 h
  obtain ⟨rfl, h0, h1⟩ := Operand.intIn_some hn
  rw [Operand.ofUnsigned, BitVec.toNat_ofInt]
  congr 1
  omega

@[simp] theorem Operand.asI32_ofInt (b : Int32Word) : (Operand.ofInt b.toInt).asI32 = some b := by
  have h1 := b.le_toInt
  have h2 := b.toInt_lt
  rw [Operand.asI32, Operand.intIn_ofInt (by omega) (by omega)]
  simp

theorem Operand.asI32_some {o : Operand} {b : Int32Word} (h : o.asI32 = some b) : o = .ofInt b.toInt := by
  obtain ⟨n, hn, rfl⟩ := Option.map_eq_some_iff.1 h
  obtain ⟨rfl, h0, h1⟩ := Operand.intIn_some hn
  congr 1
  rw [BitVec.toInt_ofInt, Int.bmod_eq_of_le] <;> omega

@[simp] theorem Operand.asBit_ofBit (b : Bool) : (Operand.ofBit b).asBit = some b := by
  cases b <;> rfl

theorem Operand.asBit_some {o : Operand} {b : Bool} (h : o.asBit = some b) : o = .ofBit b := by
  obtain ⟨n, hn, rfl⟩ := Option.map_eq_some_iff.1 h
  obtain ⟨rfl, h0, h1⟩ := Operand.intIn_some hn
  have : n = 0 ∨ n = 1 := by omega
  rcases this with rfl | rfl <;> rfl

@[simp] theorem Operand.asLvl_ofInt (l : Fin 9) : (Operand.ofInt l.val).asLvl = some l := by
  have := l.isLt
  rw [Operand.asLvl, Operand.intIn_ofInt (by omega) (by omega)]
  simp

theorem Operand.asLvl_some {o : Operand} {l : Fin 9} (h : o.asLvl = some l) : o = .ofInt l.val := by
  obtain ⟨n, hn, rfl⟩ := Option.map_eq_some_iff.1 h
  obtain ⟨rfl, h0, h1⟩ := Operand.intIn_some hn
  congr 1
  simp [Fin.ofNat]
  omega

@[simp] theorem Operand.asRat_num (q : Rat) : (Operand.num q).asRat = some q := rfl

theorem Operand.asRat_some {o : Operand} {q : Rat} (h : o.asRat = some q) : o = .num q := by
  cases o <;> cases h
  rfl

theorem Operand.asSyms_ofSyms {l : List Byte} (h : l.length ≤ 255) : (Operand.ofSyms l).asSyms = some l := by
  rw [Operand.ofSyms, Operand.asSyms, if_pos ⟨by simpa using h, by simpa using fun b _ => b.isLt⟩]
  simp [Function.comp_def]

theorem Operand.asSyms_some {o : Operand} {l : List Byte} (h : o.asSyms = some l) :
    o = .ofSyms l ∧ l.length ≤ 255 := by
  cases o with
  | num q => cases h
  | syms m =>
    simp only [Operand.asSyms] at h
    split at h
    · rename_i hm
      cases h
      refine ⟨?_, by simpa using hm.1⟩
      rw [Operand.ofSyms, List.map_map]
      congr 1
      refine ((List.map_congr_left fun n hn => ?_).trans m.map_id).symm
      simpa using hm.2 n hn
    · cases h

/-! ### A type admits what its reader reads (R66) -/

/-- R66: the natural numbers of a range, as operands. -/
theorem Operand.intIn_nat_iff (o : Operand) (hi : Int) :
    (∃ n : Nat, (n : Int) < hi ∧ o = .num n) ↔ ∃ n, o.intIn 0 hi = some n := by
  constructor
  · rintro ⟨n, hn, rfl⟩
    exact ⟨n, Operand.intIn_ofInt (by omega) (by omega)⟩
  · rintro ⟨n, hn⟩
    obtain ⟨rfl, h0, h1⟩ := Operand.intIn_some hn
    refine ⟨n.toNat, by omega, ?_⟩
    rw [Operand.ofInt, ← Int.cast_natCast, Int.toNat_of_nonneg h0]
    rfl

/-- R66: an operand is of its type exactly when the decoder reads it. -/
theorem admits_iff (t : OperandType) (o : Operand) :
    Machine.OperandType.admits t o ↔
      match t with
      | .u8 => ∃ b, o.asU8 = some b
      | .bit => ∃ b, o.asBit = some b
      | .i32 => ∃ b, o.asI32 = some b
      | .lvl => ∃ l, o.asLvl = some l
      | .rat => ∃ q, o.asRat = some q
      | .u32 => ∃ b, o.asU32 = some b
      | .symSeq => ∃ l, o.asSyms = some l := by
  have hmap : ∀ {α : Type} (f : Int → α) (x : Option Int), (∃ a, x.map f = some a) ↔ ∃ n, x = some n := by
    intro α f x
    cases x <;> simp
  cases t with
  | u8 =>
    rw [Operand.asU8, hmap, ← Operand.intIn_nat_iff o 256]
    simp only [Machine.OperandType.admits]
    exact exists_congr fun n => and_congr_left fun _ => by omega
  | lvl =>
    rw [Operand.asLvl, hmap, ← Operand.intIn_nat_iff o 9]
    simp only [Machine.OperandType.admits]
    exact exists_congr fun n => and_congr_left fun _ => by omega
  | u32 =>
    rw [Operand.asU32, hmap, ← Operand.intIn_nat_iff o 4294967296]
    simp only [Machine.OperandType.admits]
    exact exists_congr fun n => and_congr_left fun _ => by omega
  | bit =>
    rw [Operand.asBit, hmap, ← Operand.intIn_nat_iff o 2]
    simp only [Machine.OperandType.admits]
    constructor
    · rintro (rfl | rfl)
      · exact ⟨0, by omega, rfl⟩
      · exact ⟨1, by omega, rfl⟩
    · rintro ⟨n, hn, rfl⟩
      have : n = 0 ∨ n = 1 := by omega
      rcases this with rfl | rfl
      · exact .inl rfl
      · exact .inr rfl
  | i32 =>
    rw [Operand.asI32, hmap]
    simp only [Machine.OperandType.admits]
    constructor
    · rintro ⟨n, h0, h1, rfl⟩
      exact ⟨n, Operand.intIn_ofInt (by omega) (by omega)⟩
    · rintro ⟨n, hn⟩
      obtain ⟨rfl, h0, h1⟩ := Operand.intIn_some hn
      exact ⟨n, by omega, by omega, rfl⟩
  | rat => cases o <;> simp [Machine.OperandType.admits, Operand.asRat]
  | symSeq =>
    cases o with
    | num q => simp [Machine.OperandType.admits, Operand.asSyms]
    | syms l => simp [Machine.OperandType.admits, Operand.asSyms, Nat.lt_succ_iff]

/-! ### One lemma for each opcode (R67) -/

theorem hostInstr_beginFrame :
    hostInstr 0x01#8 [] = some .beginFrame := rfl
theorem hostInstr_endFrame :
    hostInstr 0x02#8 [] = some .endFrame := rfl
theorem hostInstr_send (o : Operand) :
    hostInstr 0x03#8 [o] = (o.asU8).bind fun w => some (.send w) := rfl
theorem hostInstr_encodeSym (o : Operand) :
    hostInstr 0x10#8 [o] = (o.asU8).bind fun w => some (.encodeSym w) := rfl
theorem hostInstr_setContent (o p q r : Operand) :
    hostInstr 0x11#8 [o, p, q, r] = (o.asSyms).bind fun w => (p.asU8).bind fun x => (q.asBit).bind fun y => (r.asBit).bind fun z => some (.setContent w x y z) := rfl
theorem hostInstr_setNumber (o p q r : Operand) :
    hostInstr 0x12#8 [o, p, q, r] = (o.asI32).bind fun w => (p.asU8).bind fun x => (q.asBit).bind fun y => (r.asBit).bind fun z => some (.setNumber w x y z) := rfl
theorem hostInstr_overlay :
    hostInstr 0x13#8 [] = some .overlay := rfl
theorem hostInstr_clear :
    hostInstr 0x14#8 [] = some .clear := rfl
theorem hostInstr_setColon (o : Operand) :
    hostInstr 0x15#8 [o] = (o.asBit).bind fun w => some (.setColon w) := rfl
theorem hostInstr_setDp (o : Operand) :
    hostInstr 0x16#8 [o] = (o.asU8).bind fun w => some (.setDp w) := rfl
theorem hostInstr_fromLevel (o : Operand) :
    hostInstr 0x20#8 [o] = (o.asI32).bind fun w => some (.fromLevel w) := rfl
theorem hostInstr_toPercent (o : Operand) :
    hostInstr 0x21#8 [o] = (o.asLvl).bind fun w => some (.toPercent w) := rfl
theorem hostInstr_fromPercent (o : Operand) :
    hostInstr 0x22#8 [o] = (o.asRat).bind fun w => some (.fromPercent w) := rfl
theorem hostInstr_setLevel (o : Operand) :
    hostInstr 0x23#8 [o] = (o.asI32).bind fun w => some (.setLevel w) := rfl
theorem hostInstr_setPercent (o : Operand) :
    hostInstr 0x24#8 [o] = (o.asRat).bind fun w => some (.setPercent w) := rfl
theorem hostInstr_refresh :
    hostInstr 0x30#8 [] = some .refresh := rfl
theorem hostInstr_blink (o p : Operand) :
    hostInstr 0x40#8 [o, p] = (o.asU32).bind fun w => (p.asU32).bind fun x => some (.blink w x) := rfl
theorem hostInstr_fadeOut (o p : Operand) :
    hostInstr 0x41#8 [o, p] = (o.asU32).bind fun w => (p.asU32).bind fun x => some (.fadeOut w x) := rfl
theorem hostInstr_fadeIn (o p : Operand) :
    hostInstr 0x42#8 [o, p] = (o.asU32).bind fun w => (p.asU32).bind fun x => some (.fadeIn w x) := rfl
theorem hostInstr_scroll (o p : Operand) :
    hostInstr 0x43#8 [o, p] = (o.asU32).bind fun w => (p.asU32).bind fun x => some (.scroll w x) := rfl
theorem hostInstr_resetAnim :
    hostInstr 0x44#8 [] = some .resetAnim := rfl

/-- R65: a listed opcode with as many operands as it fixes, each in its type. -/
theorem decodeCall_ok {op : Byte} {ops : List Operand} {types : List OperandType} {i : Instr}
    (ht : operandTypes op = some types) (hl : ops.length = types.length) (hi : hostInstr op ops = some i) :
    decode (.call ⟨op, ops⟩) = .ok i := by
  simp [decode, decodeCall, ht, hl, hi]

/-- R65, R116: everything a decoded host call is. -/
theorem decodeCall_cases {op : Byte} {ops : List Operand} {i : Instr} (h : decode (.call ⟨op, ops⟩) = .ok i) :
    hostInstr op ops = some i := by
  simp only [decode, decodeCall] at h
  split at h
  · cases h
  · split at h
    · split at h
      · cases h
        assumption
      · cases h
    · cases h

/-! ### Wire bytes -/

/-- R60: a byte of the address class reads as its address. -/
theorem decodeCommand_wireAddr (a : BitVec 4) : decodeCommand (wireAddrByte a) = .ok (.wireAddr a) := by
  revert a
  decide +kernel

/-- R61: a display-on byte reads as its pulse width. -/
theorem decodeCommand_wireDispOn (ppp : BitVec 3) : decodeCommand (wireDispOnByte ppp) = .ok (.wireDispOn ppp) := by
  revert ppp
  decide +kernel

end Sys2Proof
end

