-- ==== Sys2Proof/Laws/Memory.lean ====
section
/-! SUPPORT. The laws of the buffer: every operation keeps the canonical form, a read gives what was last written there,
and buffers in canonical form that read alike are equal. -/

namespace Sys2Proof.Machine

/-! ### The canonical form -/

/-- The canonical form, in the terms of lists: strictly rising indices and no blank code. -/
theorem Memory.wf_iff (m : Memory) :
    m.wf = true ↔ m.Pairwise (fun c d => c.1 < d.1) ∧ ∀ c ∈ m, c.2 ≠ blank := by
  induction m with
  | nil => simp [Memory.wf]
  | cons c rest ih =>
    cases rest with
    | nil => simp [Memory.wf]
    | cons d rest =>
      simp only [Memory.wf, Bool.and_eq_true, bne_iff_ne, decide_eq_true_eq, ih, List.pairwise_cons,
        List.forall_mem_cons]
      constructor
      · rintro ⟨⟨hc, hcd⟩, ⟨hd, hp⟩, hb, hr⟩
        exact ⟨⟨⟨hcd, fun e he => hcd.trans (hd e he)⟩, hd, hp⟩, hc, hb, hr⟩
      · rintro ⟨⟨⟨hcd, -⟩, hd, hp⟩, hc, hb, hr⟩
        exact ⟨⟨hc, hcd⟩, ⟨hd, hp⟩, hb, hr⟩

theorem Memory.wf_tail {c : Host.Cell} {m : Memory} (h : Memory.wf (c :: m) = true) : m.wf = true := by
  rw [Memory.wf_iff] at *
  exact ⟨(List.pairwise_cons.1 h.1).2, fun d hd => h.2 d (List.mem_cons_of_mem _ hd)⟩

theorem Memory.head_lt {c : Host.Cell} {m : Memory} (h : Memory.wf (c :: m) = true) : ∀ d ∈ m, c.1 < d.1 :=
  (List.pairwise_cons.1 ((Memory.wf_iff _).1 h).1).1

theorem Memory.head_ne_blank {c : Host.Cell} {m : Memory} (h : Memory.wf (c :: m) = true) : c.2 ≠ blank :=
  ((Memory.wf_iff _).1 h).2 c List.mem_cons_self

theorem Memory.wf_cons {c : Host.Cell} {m : Memory} (hm : m.wf = true) (hc : c.2 ≠ blank)
    (hlt : ∀ d ∈ m, c.1 < d.1) : Memory.wf (c :: m) = true := by
  rw [Memory.wf_iff] at *
  exact ⟨List.pairwise_cons.2 ⟨hlt, hm.1⟩, List.forall_mem_cons.2 ⟨hc, hm.2⟩⟩

theorem Memory.wf_put {i : Nat} {v : Byte} {m : Memory} (hm : m.wf = true) (hlt : ∀ d ∈ m, i < d.1) :
    (Memory.put i v m).wf = true := by
  unfold Memory.put
  split
  · exact hm
  · exact Memory.wf_cons hm ‹_› hlt

/-- A cell of a written buffer is an old one or the written one. -/
theorem Memory.mem_write {m : Memory} {i : Nat} {v : Byte} {c : Host.Cell} (h : c ∈ m.write i v) :
    c ∈ m ∨ c = (i, v) := by
  induction m with
  | nil =>
    simp only [Memory.write, Memory.put] at h
    split at h <;> simp_all
  | cons d rest ih =>
    simp only [Memory.write, Memory.put] at h
    split at h
    · rcases List.mem_cons.1 h with rfl | h
      · simp
      · rcases ih h with h | h <;> simp [h]
    · split at h <;> split at h <;> simp_all <;> tauto

/-- A write keeps the canonical form. -/
theorem Memory.wf_write {m : Memory} (hm : m.wf = true) (i : Nat) (v : Byte) : (m.write i v).wf = true := by
  induction m with
  | nil => exact Memory.wf_put rfl (by simp)
  | cons c rest ih =>
    simp only [Memory.write]
    split
    · refine Memory.wf_cons (ih (Memory.wf_tail hm)) (Memory.head_ne_blank hm) fun d hd => ?_
      rcases Memory.mem_write hd with h | rfl
      · exact Memory.head_lt hm d h
      · assumption
    · have hlt := Memory.head_lt hm
      split
      · exact Memory.wf_put (Memory.wf_tail hm) fun d hd => by have := hlt d hd; omega
      · refine Memory.wf_put hm fun d hd => ?_
        rcases List.mem_cons.1 hd with rfl | hd
        · omega
        · have := hlt d hd; omega

theorem Memory.wf_writeAll {m : Memory} (hm : m.wf = true) (i : Nat) (l : List Byte) :
    (m.writeAll i l).wf = true := by
  induction l generalizing m i with
  | nil => exact hm
  | cons c rest ih => exact ih (Memory.wf_write hm i c) (i + 1)

theorem Memory.wf_fill {m : Memory} (hm : m.wf = true) (i : Nat) (v : Byte) (n : Nat) :
    (m.fill i v n).wf = true := by
  induction n generalizing m i with
  | zero => exact hm
  | succ n ih => exact ih (Memory.wf_write hm i v) (i + 1)

/-- The reset buffer is in canonical form. -/
theorem State.reset_buf_wf : State.reset.disp.buf.wf = true := rfl

/-! ### Reading -/

@[simp] theorem Memory.read_nil (i : Nat) : Memory.read [] i = blank := rfl

theorem Memory.read_cons (c : Host.Cell) (m : Memory) (i : Nat) :
    Memory.read (c :: m) i = if c.1 = i then c.2 else m.read i := rfl

/-- An index that no cell has reads as blank. -/
theorem Memory.read_absent {m : Memory} {i : Nat} (h : ∀ c ∈ m, c.1 ≠ i) : m.read i = blank := by
  induction m with
  | nil => rfl
  | cons c rest ih =>
    rw [Memory.read_cons, if_neg (h c List.mem_cons_self), ih fun d hd => h d (List.mem_cons_of_mem _ hd)]

/-- A listed cell reads as its code. -/
theorem Memory.read_of_mem {m : Memory} (hm : m.wf = true) {c : Host.Cell} (h : c ∈ m) : m.read c.1 = c.2 := by
  induction m with
  | nil => cases h
  | cons d rest ih =>
    rw [Memory.read_cons]
    rcases List.mem_cons.1 h with rfl | h
    · simp
    · rw [if_neg (Memory.head_lt hm c h).ne, ih (Memory.wf_tail hm) h]

theorem Memory.read_put {i j : Nat} {v : Byte} {m : Memory} (hlt : ∀ d ∈ m, i < d.1) :
    (Memory.put i v m).read j = if j = i then v else m.read j := by
  unfold Memory.put
  split
  · split
    · subst_vars; exact Memory.read_absent fun c hc => (hlt c hc).ne'
    · rfl
  · simp [Memory.read_cons, eq_comm]

/-- A read after a write: the written code at the written index, the old one elsewhere. -/
theorem Memory.read_write {m : Memory} (hm : m.wf = true) (i j : Nat) (v : Byte) :
    (m.write i v).read j = if j = i then v else m.read j := by
  induction m with
  | nil => exact Memory.read_put (by simp)
  | cons c rest ih =>
    have hlt := Memory.head_lt hm
    simp only [Memory.write]
    split
    · rw [Memory.read_cons, Memory.read_cons, ih (Memory.wf_tail hm)]
      split <;> split <;> first | rfl | omega
    · split
      · rw [Memory.read_put fun d hd => by have := hlt d hd; omega, Memory.read_cons]
        split
        · rfl
        · rw [if_neg (by omega)]
      · refine Memory.read_put fun d hd => ?_
        rcases List.mem_cons.1 hd with rfl | hd
        · omega
        · have := hlt d hd; omega

/-- A read after a run of writes. -/
theorem Memory.read_writeAll {m : Memory} (hm : m.wf = true) (i j : Nat) (l : List Byte) :
    (m.writeAll i l).read j = if i ≤ j ∧ j < i + l.length then l.getD (j - i) blank else m.read j := by
  induction l generalizing m i with
  | nil => simp [Memory.writeAll]
  | cons c rest ih =>
    rw [Memory.writeAll, ih (Memory.wf_write hm i c), Memory.read_write hm]
    simp only [List.length_cons]
    by_cases hj : j = i
    · subst hj; simp
    · by_cases h : i ≤ j ∧ j < i + (rest.length + 1)
      · obtain ⟨k, rfl⟩ : ∃ k, j = i + 1 + k := ⟨j - (i + 1), by omega⟩
        rw [if_pos (by omega), if_pos h, show i + 1 + k - i = k + 1 by omega, show i + 1 + k - (i + 1) = k by omega]
        simp
      · rw [if_neg (by omega), if_neg hj, if_neg h]

/-- A read after a fill. -/
theorem Memory.read_fill {m : Memory} (hm : m.wf = true) (i j : Nat) (v : Byte) (n : Nat) :
    (m.fill i v n).read j = if i ≤ j ∧ j < i + n then v else m.read j := by
  induction n generalizing m i with
  | zero => simp [Memory.fill]
  | succ n ih =>
    rw [Memory.fill, ih (Memory.wf_write hm i v), Memory.read_write hm]
    by_cases hj : j = i
    · subst hj; simp
    · by_cases h : i ≤ j ∧ j < i + (n + 1)
      · rw [if_pos (by omega), if_pos h]
      · rw [if_neg (by omega), if_neg hj, if_neg h]

/-- Equal buffers are equal data: two buffers in canonical form that read alike are the same list. -/
theorem Memory.ext_of_read {m n : Memory} (hm : m.wf = true) (hn : n.wf = true)
    (h : ∀ i, m.read i = n.read i) : m = n := by
  induction m generalizing n with
  | nil =>
    cases n with
    | nil => rfl
    | cons d rest =>
      have := h d.1
      rw [Memory.read_of_mem hn List.mem_cons_self] at this
      exact absurd this.symm (Memory.head_ne_blank hn)
  | cons c rest ih =>
    cases n with
    | nil =>
      have := h c.1
      rw [Memory.read_of_mem hm List.mem_cons_self] at this
      exact absurd this (Memory.head_ne_blank hm)
    | cons d rest' =>
      have hle : ∀ {a b : Host.Cell} {p q : Memory}, Memory.wf (a :: p) = true → Memory.wf (b :: q) = true →
          Memory.read (a :: p) a.1 = Memory.read (b :: q) a.1 → b.1 ≤ a.1 := by
        intro a b p q ha hb hab
        by_contra hlt
        rw [Memory.read_of_mem ha List.mem_cons_self, Memory.read_absent] at hab
        · exact Memory.head_ne_blank ha hab
        · intro e he
          rcases List.mem_cons.1 he with rfl | he
          · omega
          · have := Memory.head_lt hb e he; omega
      have hkey : c.1 = d.1 := le_antisymm (hle hn hm (h d.1).symm) (hle hm hn (h c.1))
      have hcode : c.2 = d.2 := by
        have := h c.1
        rwa [Memory.read_of_mem hm List.mem_cons_self, hkey, Memory.read_of_mem hn List.mem_cons_self] at this
      obtain rfl : c = d := Prod.ext hkey hcode
      congr 1
      refine ih (Memory.wf_tail hm) (Memory.wf_tail hn) fun i => ?_
      have hi := h i
      rw [Memory.read_cons, Memory.read_cons] at hi
      by_cases hc : c.1 = i
      · subst hc
        rw [Memory.read_absent fun e he => (Memory.head_lt hm e he).ne',
          Memory.read_absent fun e he => (Memory.head_lt hn e he).ne']
      · rwa [if_neg hc, if_neg hc] at hi

end Sys2Proof.Machine
end

