-- ==== Sys2Proof/Laws/Operands.lean ====
section
/-! SUPPORT. What the computations over operands, the configuration and the window give (30_encoding.md to
43_animator.md), one lemma for each. -/

namespace Sys2Proof.Machine

/-! ### Legal configurations (R7) -/

/-- R7: what a legal configuration has. -/
theorem Config.legal_iff (c : Config) :
    c.legal = true ↔
      (1 ≤ c.pN ∧ c.pN ≤ 6) ∧ (c.pN ≤ c.cacheCap ∧ c.cacheCap ≤ 255) ∧
      (∀ e ∈ c.encEntries, encEntryLegal c.encVariant e = true) ∧ pctLegal c.pct = true ∧
      (1 ≤ c.defaultLevel.toNat ∧ c.defaultLevel.toNat ≤ 8) ∧ c.resetLevel.toNat ≤ 8 := by
  simp only [Config.legal, Bool.and_eq_true, decide_eq_true_eq, List.all_eq_true]
  tauto

theorem Config.legal_pN {c : Config} (h : c.legal = true) : 1 ≤ c.pN ∧ c.pN ≤ 6 := ((Config.legal_iff c).1 h).1

theorem Config.legal_cap {c : Config} (h : c.legal = true) : c.pN ≤ c.cacheCap ∧ c.cacheCap ≤ 255 :=
  ((Config.legal_iff c).1 h).2.1

theorem Config.legal_defaultLevel {c : Config} (h : c.legal = true) : c.defaultLevel.toNat ≤ 8 :=
  ((Config.legal_iff c).1 h).2.2.2.2.1.2

/-! ### The encoder table (R82) -/

/-- R82: where a code comes from. -/
theorem Config.enc_cases (c : Config) (sym : Byte) :
    (∃ code, (sym, code) ∈ c.encEntries ∧ c.enc sym = code) ∨
    (∃ code, fixedCode sym = some code ∧ c.enc sym = code) ∨
    (fixedCode sym = none ∧ openSymbol c.encVariant sym = true ∧
      c.enc sym = 0#1 ++ Config.openCode c.encVariant sym) ∨
    (fixedCode sym = none ∧ openSymbol c.encVariant sym = false ∧ c.enc sym = 0x00#8) := by
  unfold Config.enc
  split
  · rename_i code h
    refine .inl ⟨code, ?_, rfl⟩
    obtain ⟨l, r, heq, -⟩ := List.lookup_eq_some_iff.1 h
    rw [heq]
    simp
  · split
    · rename_i code hfix
      exact .inr (.inl ⟨code, hfix, rfl⟩)
    · rename_i hfix
      split
      · rename_i h
        exact .inr (.inr (.inl ⟨hfix, h, rfl⟩))
      · rename_i h
        exact .inr (.inr (.inr ⟨hfix, by simpa using h, rfl⟩))

theorem fixedCode_bit7 {sym code : Byte} (h : fixedCode sym = some code) : code.getLsbD 7 = false := by
  unfold fixedCode at h
  split at h <;> first | (cases h; rfl) | cases h

/-- R82, property 3: bit 7 of every code is 0. -/
theorem Config.enc_bit7 {c : Config} (hc : c.legal = true) (sym : Byte) : (c.enc sym).getLsbD 7 = false := by
  obtain ⟨code, hmem, heq⟩ | ⟨code, hfix, heq⟩ | ⟨-, -, heq⟩ | ⟨-, -, heq⟩ := Config.enc_cases c sym
  · have := ((Config.legal_iff c).1 hc).2.2.1 _ hmem
    simp only [encEntryLegal, Bool.and_eq_true, Bool.not_eq_true'] at this
    rw [heq]
    exact this.1
  · rw [heq]
    exact fixedCode_bit7 hfix
  · rw [heq, BitVec.getLsbD_append]
    simp
  · rw [heq]
    rfl

/-- R57: the fixed entries. -/
theorem Config.enc_fixed {c : Config} (hc : c.legal = true) {sym code : Byte} (hfix : fixedCode sym = some code) :
    c.enc sym = code := by
  obtain ⟨code', hmem, heq⟩ | ⟨code', hfix', heq⟩ | ⟨h, -⟩ | ⟨h, -⟩ := Config.enc_cases c sym
  · have := ((Config.legal_iff c).1 hc).2.2.1 _ hmem
    simp only [encEntryLegal, hfix, Bool.and_eq_true, beq_iff_eq] at this
    rw [heq]
    exact this.2
  · rw [heq]
    exact Option.some.inj (hfix'.symm.trans hfix)
  · simp [hfix] at h
  · simp [hfix] at h

/-- R82: a symbol outside the variant's table is blank. -/
theorem Config.enc_outside {c : Config} (hc : c.legal = true) {sym : Byte} (hfix : fixedCode sym = none)
    (hopen : openSymbol c.encVariant sym = false) : c.enc sym = 0x00#8 := by
  obtain ⟨code', hmem, heq⟩ | ⟨code', hfix', -⟩ | ⟨-, h, -⟩ | ⟨-, -, heq⟩ := Config.enc_cases c sym
  · have := ((Config.legal_iff c).1 hc).2.2.1 _ hmem
    simp only [encEntryLegal, hfix, hopen, Bool.and_eq_true, Bool.false_or, beq_iff_eq] at this
    rw [heq]
    exact this.2
  · simp [hfix] at hfix'
  · simp [hopen] at h
  · exact heq

/-! ### Decimal rendering (R85) -/

theorem decDigits_eq (fuel : Nat) : ∀ (m nd : Nat) (acc : List Byte), m < 2 ^ (fuel + 1) → 1 ≤ nd → m < 10 ^ nd →
    (nd = 1 ∨ 10 ^ (nd - 1) ≤ m) →
    decDigits fuel m acc = (List.range nd).map (fun i => digitSym (m / 10 ^ (nd - 1 - i) % 10)) ++ acc := by
  have hone : ∀ m nd : Nat, 1 ≤ nd → m < 10 → (nd = 1 ∨ 10 ^ (nd - 1) ≤ m) → nd = 1 := by
    intro m nd h2 hm h4
    by_contra hne
    have h4 := h4.resolve_left hne
    have : 10 ^ 1 ≤ 10 ^ (nd - 1) := Nat.pow_le_pow_right (by omega) (by omega)
    omega
  induction fuel with
  | zero =>
    intro m nd acc h1 h2 h3 h4
    obtain rfl := hone m nd h2 (by omega) h4
    simp [decDigits, List.range_succ]
  | succ fuel ih =>
    intro m nd acc h1 h2 h3 h4
    rw [decDigits]
    by_cases hm : m < 10
    · obtain rfl := hone m nd h2 hm h4
      simp [hm, List.range_succ, Nat.mod_eq_of_lt hm]
    · rw [if_neg hm]
      obtain ⟨n, rfl⟩ : ∃ n, nd = n + 2 := by
        rcases nd with _ | _ | n
        · omega
        · omega
        · exact ⟨n, rfl⟩
      have h4 := h4.resolve_left (by omega)
      rw [ih (m / 10) (n + 1) _ (by rw [pow_succ] at h1; omega) (by omega) (by rw [pow_succ] at h3; omega)
        (by right; simp only [Nat.add_sub_cancel]; rw [show n + 2 - 1 = n + 1 by omega, pow_succ] at h4; omega)]
      rw [List.range_succ (n := n + 1), List.map_append, List.append_assoc]
      congr 1
      · apply List.map_congr_left
        intro i hi
        have hi : i < n + 1 := by simpa using hi
        rw [Nat.div_div_eq_div_mul, ← pow_succ', show n + 1 - 1 - i + 1 = n + 2 - 1 - i by omega]
      · simp

/-- R85: the digits of a number that has nd of them, each by its power of ten. -/
theorem dec_eq (m nd : Nat) (h1 : 1 ≤ nd) (h2 : m < 10 ^ nd) (h3 : nd = 1 ∨ 10 ^ (nd - 1) ≤ m) :
    dec m = (List.range nd).map (fun i => digitSym (m / 10 ^ (nd - 1 - i) % 10)) := by
  rw [dec, decDigits_eq _ _ nd _ Nat.lt_log2_self h1 h2 h3, List.append_nil]

/-! ### Content (R83, R84, R89) -/

theorem capacity_le {c : Config} (hc : c.legal = true) (ovf : Bool) : capacity c ovf ≤ c.cacheCap := by
  have := (Config.legal_cap hc).1
  cases ovf <;> simp only [capacity, if_true, Bool.false_eq_true, if_false] <;> omega

theorem pN_le_capacity {c : Config} (hc : c.legal = true) (ovf : Bool) : c.pN ≤ capacity c ovf := by
  have := (Config.legal_cap hc).1
  cases ovf <;> simp only [capacity, if_true, Bool.false_eq_true, if_false] <;> omega

/-- R84: the content length after SETCONTENT. -/
theorem Display.setContent_len (c : Config) (syms : List Byte) (off : Nat) (ovf pad : Bool) (d : Display) :
    (d.setContent c syms off ovf pad).len =
      if pad = true ∧ min off (capacity c ovf) + min syms.length (capacity c ovf - min off (capacity c ovf)) < c.pN
      then c.pN
      else min off (capacity c ovf) + min syms.length (capacity c ovf - min off (capacity c ovf)) := by
  simp only [Display.setContent, Bool.and_eq_true, decide_eq_true_eq]
  split <;> rfl

@[simp] theorem Display.setContent_colon (c : Config) (syms : List Byte) (off : Nat) (ovf pad : Bool) (d : Display) :
    (d.setContent c syms off ovf pad).colon = d.colon := by
  simp only [Display.setContent]; split <;> rfl

@[simp] theorem Display.setContent_dp (c : Config) (syms : List Byte) (off : Nat) (ovf pad : Bool) (d : Display) :
    (d.setContent c syms off ovf pad).dp = d.dp := by
  simp only [Display.setContent]; split <;> rfl

@[simp] theorem Display.setContent_win (c : Config) (syms : List Byte) (off : Nat) (ovf pad : Bool) (d : Display) :
    (d.setContent c syms off ovf pad).win = d.win := by
  simp only [Display.setContent]; split <;> rfl

/-- SETCONTENT keeps the canonical form. -/
theorem Display.setContent_wf (c : Config) (syms : List Byte) (off : Nat) (ovf pad : Bool) {d : Display}
    (h : d.buf.wf = true) : (d.setContent c syms off ovf pad).buf.wf = true := by
  simp only [Display.setContent]
  split
  · exact Memory.wf_fill (Memory.wf_fill (Memory.wf_writeAll h _ _) _ _ _) _ _ _
  · exact Memory.wf_fill (Memory.wf_writeAll h _ _) _ _ _

/-- R84: every cell after SETCONTENT. -/
theorem Display.setContent_read {c : Config} (hc : c.legal = true) (syms : List Byte) (off : Nat) (ovf pad : Bool)
    {d : Display} (h : d.buf.wf = true) (i : Nat) :
    let o := min off (capacity c ovf)
    let k := min syms.length (capacity c ovf - o)
    (d.setContent c syms off ovf pad).buf.read i =
      if i < o then d.buf.read i
      else if i < o + k then c.enc (syms.getD (i - o) 0x00#8)
      else if pad = true ∧ i < c.pN then zeroCode
      else if i < c.cacheCap then blank
      else d.buf.read i := by
  intro o k
  have hcap := capacity_le hc ovf
  have hpn := (Config.legal_cap hc).1
  have ho : o ≤ capacity c ovf := min_le_right _ _
  have hk : k ≤ capacity c ovf - o := min_le_right _ _
  have hks : k ≤ syms.length := min_le_left _ _
  have hlen : ((syms.take k).map c.enc).length = k := by simp [hks]
  have hget : ∀ j, j < k → ((syms.take k).map c.enc).getD j blank = c.enc (syms.getD j 0x00#8) := by
    intro j hj
    have hj' : j < syms.length := by omega
    simp [List.getD_eq_getElem?_getD, hj, hj']
  have hstored := Memory.read_writeAll h o i ((syms.take k).map c.enc)
  have hwf := Memory.wf_writeAll h o ((syms.take k).map c.enc)
  rw [hlen] at hstored
  have hcleared := Memory.read_fill hwf (o + k) i blank (c.cacheCap - (o + k))
  rw [hstored] at hcleared
  have hbuf : (d.setContent c syms off ovf pad).buf =
      if pad = true ∧ o + k < c.pN then
        ((d.buf.writeAll o ((syms.take k).map c.enc)).fill (o + k) blank (c.cacheCap - (o + k))).fill (o + k) zeroCode
          (c.pN - (o + k))
      else (d.buf.writeAll o ((syms.take k).map c.enc)).fill (o + k) blank (c.cacheCap - (o + k)) := by
    simp only [Display.setContent, Bool.and_eq_true, decide_eq_true_eq]
    split <;> rfl
  rw [hbuf]
  by_cases h1 : i < o
  · rw [if_pos h1]
    split
    · rw [Memory.read_fill (Memory.wf_fill hwf _ _ _), if_neg (by omega), hcleared, if_neg (by omega),
        if_neg (by omega)]
    · rw [hcleared, if_neg (by omega), if_neg (by omega)]
  · rw [if_neg h1]
    by_cases h2 : i < o + k
    · rw [if_pos h2]
      split
      · rw [Memory.read_fill (Memory.wf_fill hwf _ _ _), if_neg (by omega), hcleared, if_neg (by omega),
          if_pos (by omega), hget _ (by omega)]
      · rw [hcleared, if_neg (by omega), if_pos (by omega), hget _ (by omega)]
    · rw [if_neg h2]
      by_cases h3 : pad = true ∧ i < c.pN
      · rw [if_pos h3, if_pos ⟨h3.1, by omega⟩, Memory.read_fill (Memory.wf_fill hwf _ _ _), if_pos (by omega)]
      · have hrest : (if o + k ≤ i ∧ i < o + k + (c.cacheCap - (o + k)) then blank
            else if o ≤ i ∧ i < o + k then ((syms.take k).map c.enc).getD (i - o) blank else d.buf.read i) =
            if i < c.cacheCap then blank else d.buf.read i := by
          by_cases h4 : i < c.cacheCap
          · rw [if_pos (by omega), if_pos h4]
          · rw [if_neg (by omega), if_neg (by omega), if_neg h4]
        rw [if_neg h3]
        split
        · rename_i hp
          rw [Memory.read_fill (Memory.wf_fill hwf _ _ _), if_neg, hcleared, hrest]
          intro hi
          exact h3 ⟨hp.1, by omega⟩
        · rw [hcleared, hrest]

/-- R24: SETCONTENT keeps the buffer's invariant. -/
theorem Display.setContent_bufferOk {c : Config} (hc : c.legal = true) (syms : List Byte) (off : Nat) (ovf pad : Bool)
    {d : Display} (h : d.BufferOk c) : (d.setContent c syms off ovf pad).BufferOk c := by
  obtain ⟨hwf, hlen, hcells⟩ := h
  have hwf' := Display.setContent_wf c syms off ovf pad hwf
  have hcap := capacity_le hc ovf
  have hpn := (Config.legal_cap hc).1
  refine ⟨hwf', ?_, fun cell hcell => ?_⟩
  · rw [Display.setContent_len]
    split <;> omega
  · have hread := Memory.read_of_mem hwf' hcell
    have hne := ((Memory.wf_iff _).1 hwf').2 cell hcell
    have hsrc := Display.setContent_read hc syms off ovf pad hwf cell.1
    have hold : ∀ i, d.buf.read i ≠ blank → i < d.len ∧ (d.buf.read i).getLsbD 7 = false := by
      intro i hi
      by_contra hcon
      apply hi
      refine Memory.read_absent fun e he heq => ?_
      have := hcells e he
      rw [← heq, Memory.read_of_mem hwf he] at hcon
      exact hcon this
    rw [Display.setContent_len]
    simp -zeta only [hread] at hsrc
    dsimp only at hsrc
    generalize hk : min syms.length (capacity c ovf - min off (capacity c ovf)) = k at hsrc ⊢
    generalize ho : min off (capacity c ovf) = o at hsrc hk ⊢
    by_cases h1 : cell.1 < o
    · rw [if_pos h1] at hsrc
      have := hold cell.1 (hsrc ▸ hne)
      refine ⟨?_, hsrc ▸ this.2⟩
      split <;> omega
    rw [if_neg h1] at hsrc
    by_cases h2 : cell.1 < o + k
    · rw [if_pos h2] at hsrc
      refine ⟨?_, hsrc ▸ Config.enc_bit7 hc _⟩
      split <;> omega
    rw [if_neg h2] at hsrc
    by_cases h3 : pad = true ∧ cell.1 < c.pN
    · rw [if_pos h3] at hsrc
      refine ⟨?_, hsrc ▸ rfl⟩
      rw [if_pos ⟨h3.1, by omega⟩]
      exact h3.2
    rw [if_neg h3] at hsrc
    by_cases h4 : cell.1 < c.cacheCap
    · rw [if_pos h4] at hsrc
      exact absurd hsrc hne
    · rw [if_neg h4] at hsrc
      have := (hold cell.1 (hsrc ▸ hne)).1
      omega

/-- R89: every cell after CLEAR. -/
theorem Display.clear_read (c : Config) {d : Display} (h : d.buf.wf = true) (i : Nat) :
    (d.clear c).buf.read i = if i < c.cacheCap then blank else d.buf.read i := by
  rw [Display.clear, Memory.read_fill h]
  simp

/-- R89, R128: CLEAR leaves the reset buffer, where nothing is listed past the capacity. -/
theorem Display.clear_buf {c : Config} {d : Display} (h : d.BufferOk c) : (d.clear c).buf = [] := by
  refine Memory.ext_of_read (Memory.wf_fill h.1 _ _ _) rfl fun i => ?_
  refine (Display.clear_read c h.1 i).trans ?_
  split
  · rfl
  · refine (Memory.read_absent fun e he => ?_).trans rfl
    have := (h.2.2 e he).1
    have := h.2.1
    omega

/-! ### The window (R40, R87, R91) -/

theorem Display.txView_length (c : Config) (d : Display) : (d.txView c).length = c.pN := by simp [Display.txView]

theorem Display.txView_getElem? (c : Config) (d : Display) {p : Nat} (hp : p < c.pN) :
    (d.txView c)[p]? = some (d.txCode c p) := by
  simp [Display.txView, hp]

/-- R91: the bits of the mask below P_N, and no others. -/
theorem dpMask_getLsbD {pN : Nat} (hN : pN ≤ 6) (m : Byte) (p : Nat) :
    (dpMask pN m).getLsbD p = (decide (p < pN) && m.getLsbD p) := by
  by_cases hp : p < 8
  · revert m
    interval_cases pN <;> interval_cases p <;> decide +kernel
  · simp [dpMask, BitVec.getLsbD_of_ge _ p (by omega : 8 ≤ p)]

/-! ### Levels and percents (R93 to R96) -/

/-- R94: a level within 0..8 is itself. -/
theorem fromLevelValue_inside (c : Config) {n : Int} (h0 : 0 ≤ n) (h8 : n ≤ 8) :
    ((fromLevelValue c n).toNat : Int) = n := by
  rw [fromLevelValue, if_pos ⟨h0, h8⟩]
  interval_cases n <;> rfl

/-- R94: any other number is the default level. -/
theorem fromLevelValue_outside (c : Config) {n : Int} (h : n < 0 ∨ 8 < n) : fromLevelValue c n = c.defaultLevel := by
  rw [fromLevelValue, if_neg (by omega)]

/-- R28: `FromLevel` yields 0..8. -/
theorem fromLevelValue_le {c : Config} (hc : c.legal = true) (n : Int) : (fromLevelValue c n).toNat ≤ 8 := by
  by_cases h : 0 ≤ n ∧ n ≤ 8
  · have := fromLevelValue_inside c h.1 h.2
    omega
  · rw [fromLevelValue_outside c (by omega)]
    exact Config.legal_defaultLevel hc

/-- R96: what the search for a level finds. -/
theorem fromPercentIndex_spec (c : Config) (p : Rat) :
    (∀ j : Fin 9, j < fromPercentIndex c p → c.pct[j] < p) ∧
      (p ≤ c.pct[fromPercentIndex c p] ∨ fromPercentIndex c p = 8) := by
  have hsort : allLevels.Pairwise (· < ·) := by decide
  have hmem : ∀ j : Fin 9, j ∈ allLevels := by decide
  rcases hf : allLevels.find? (fun k => decide (p ≤ c.pct[k])) with _ | x
  · have hi : fromPercentIndex c p = 8 := by rw [fromPercentIndex, hf]; rfl
    rw [List.find?_eq_none] at hf
    refine ⟨fun j _ => ?_, .inr hi⟩
    simpa using hf j (hmem j)
  · have hi : fromPercentIndex c p = x := by rw [fromPercentIndex, hf]; rfl
    simp only [hi]
    refine ⟨fun j hj => ?_, .inl (by simpa using List.find?_some hf)⟩
    obtain ⟨-, as, bs, heq, has⟩ := List.find?_eq_some_iff_append.1 hf
    rcases List.mem_append.1 (heq ▸ hmem j) with hja | hjb
    · simpa using has j hja
    · rcases List.mem_cons.1 hjb with rfl | hjb
      · exact absurd hj (lt_irrefl _)
      · have := (List.pairwise_cons.1 (List.pairwise_append.1 (heq ▸ hsort)).2.1).1 j hjb
        exact absurd hj (not_lt.2 this.le)

theorem fromPercentValue_le (c : Config) (p : Rat) : (fromPercentValue c p).toNat ≤ 8 := by
  have h := (fromPercentIndex c p).isLt
  rw [fromPercentValue, BitVec.toNat_ofNat]
  exact (Nat.mod_le _ _).trans (by omega)

/-- R93: what a legal table of percents has. -/
theorem pctLegal_iff (t : Vector Rat 9) :
    pctLegal t = true ↔
      t[(0 : Fin 9)] = 0 ∧ (∀ l : Fin 8, t[l.castSucc] < t[l.succ]) ∧
      (∀ l : Fin 9, 0 ≤ t[l] ∧ t[l] ≤ 100) ∧ ¬ ∀ l : Fin 9, t[l] = (l.val : Rat) / 8 * 100 := by
  have h100 : ratio 100 1 = 100 := rfl
  have hlin : ∀ (l : Fin 9) (q : Rat), linearAt l q = true ↔ q = (l.val : Rat) / 8 * 100 := by
    intro l q
    have hd : (q.den : Rat) ≠ 0 := by exact_mod_cast q.den_nz
    rw [linearAt, beq_iff_eq]
    constructor
    · intro h
      have h' : (q.num : Rat) * 8 = (l.val : Rat) * 100 * (q.den : Rat) := by exact_mod_cast h
      have hq : q = (q.num : Rat) / (q.den : Rat) := (Rat.num_div_den q).symm
      rw [hq]
      field_simp
      linarith
    · intro h
      have hq : q = (q.num : Rat) / (q.den : Rat) := (Rat.num_div_den q).symm
      rw [hq] at h
      field_simp at h
      have h' : (q.num : Rat) * 8 = (l.val : Rat) * 100 * (q.den : Rat) := by linarith
      exact_mod_cast h'
  simp only [pctLegal, Bool.and_eq_true, decide_eq_true_eq, Bool.not_eq_true', decide_eq_false_iff_not, hlin, h100,
    and_assoc]

/-- R93: the percents rise with the levels. -/
theorem pct_strictMono {c : Config} (hc : c.legal = true) {k l : Fin 9} (h : k < l) : c.pct[k] < c.pct[l] := by
  have hstep := ((pctLegal_iff c.pct).1 ((Config.legal_iff c).1 hc).2.2.2.1).2.1
  have hmono : StrictMono (fun l : Fin 9 => c.pct[l]) := Fin.strictMono_iff_lt_succ.2 hstep
  exact hmono h

/-! ### Steps of the level (R104, R105) -/

theorem fadeOutLevel_toNat (l : Level) :
    (fadeOutLevel l).toNat = if 1 < l.toNat then l.toNat - 1 else l.toNat := by
  revert l
  decide +kernel

theorem fadeInLevel_toNat (l : Level) :
    (fadeInLevel l).toNat = if l.toNat < 8 then l.toNat + 1 else l.toNat := by
  revert l
  decide +kernel

/-- R62: the display-control byte, with the level's number. -/
theorem dispCtrl_eq (c : Config) (l : Level) :
    dispCtrl c l = if l = 0#4 then c.cmdDisp else c.cmdDisp ||| c.dispOn ||| BitVec.ofNat 8 (l.toNat - 1) := by
  have h : ∀ l : Level, l ≠ 0#4 → (l - 1#4).zeroExtend 8 = BitVec.ofNat 8 (l.toNat - 1) := by decide +kernel
  unfold dispCtrl
  split
  · rfl
  · rw [h l ‹_›]

/-! ### Due ticks (R100) -/

theorem Anim.due_iff (a : Anim) (now : Millis) :
    a.due now = true ↔ a.interval.toNat ≤ (now.toNat + 2 ^ 32 - a.last.toNat) % 2 ^ 32 := by
  have h : (now - a.last).toNat = (now.toNat + 2 ^ 32 - a.last.toNat) % 2 ^ 32 := by
    rw [BitVec.toNat_sub]
    have := a.last.isLt
    congr 1
    omega
  simp [Anim.due, Anim.elapsed, h]

/-- R100: a tick is due exactly when the state's own condition says so. -/
theorem State.due_iff (s : State) (now : Millis) : s.anim.due now = true ↔ s.dueAt now := Anim.due_iff s.anim now

/-! ### The frames of a refresh (R99) -/

theorem fixedFrames_eq (c : Config) (p : Nat) (tx : List Byte) :
    fixedFrames c p tx = tx.mapIdx (fun i code => [addrCommand c (p + i), code]) := by
  induction tx generalizing p with
  | nil => rfl
  | cons code rest ih => simp [fixedFrames, ih, List.mapIdx_cons, Nat.add_assoc, Nat.add_comm 1]

theorem refreshFrames_ne_nil (c : Config) (tx : List Byte) (l : Level) : refreshFrames c tx l ≠ [] := by
  unfold refreshFrames
  split <;> simp

/-- No frame of a refresh is empty. -/
theorem refreshFrames_frame_ne_nil (c : Config) (tx : List Byte) (l : Level) :
    ∀ f ∈ refreshFrames c tx l, f ≠ [] := by
  unfold refreshFrames
  split
  · simp
  · intro f hf
    simp only [fixedFrames_eq, List.mem_append, List.mem_cons, List.mem_mapIdx, List.not_mem_nil, or_false] at hf
    rcases hf with (rfl | ⟨i, h, rfl⟩) | rfl <;> simp

end Sys2Proof.Machine
end

