-- ==== Sys2Proof/Laws/Exec.lean ====
section
/-! SUPPORT. What a fetch, a step and an instruction can answer, said once for each (R16, R99, R101, R115 to R118). -/

namespace Sys2Proof.Machine

/-! ### Steps -/

/-- R16, R116, R117, R118, R127: everything a step can be. -/
theorem step_cases {s t : State} (h : step s = .next t) :
    s.fault = .none ∧
      ((s.resetReq = true ∧ t = s.resetInRun) ∨
       (s.resetReq = false ∧ s.cfg.legal = false ∧ t = s.refuse) ∨
       (s.Running ∧ s.pending = [] ∧ t = s) ∨
       (∃ x rest e, s.Running ∧ s.pending = x :: rest ∧ decode x = .error e ∧
         t = { s.refuse with pending := rest }) ∨
       ∃ x rest i, s.Running ∧ s.pending = x :: rest ∧ decode x = .ok i ∧
         exec i { s with pending := rest } = .next t) := by
  unfold step State.fetch at h
  by_cases hf : s.fault = .none
  · refine ⟨hf, ?_⟩
    rw [if_neg (by simp [hf])] at h
    by_cases hr : s.resetReq = true
    · rw [if_pos hr] at h
      exact .inl ⟨hr, by simpa using h.symm⟩
    · rw [if_neg hr] at h
      have hr' : s.resetReq = false := by simpa using hr
      by_cases hc : s.cfg.legal = false
      · rw [if_pos hc] at h
        exact .inr (.inl ⟨hr', hc, by simpa using h.symm⟩)
      · rw [if_neg hc] at h
        have hrun : s.Running := ⟨by simpa using hc, hf, hr'⟩
        rcases hp : s.pending with _ | ⟨x, rest⟩
        · simp only [hp] at h
          exact .inr (.inr (.inl ⟨hrun, rfl, by simpa using h.symm⟩))
        · rcases hd : decode x with e | i
          · simp only [hp, hd] at h
            exact .inr (.inr (.inr (.inl ⟨x, rest, e, hrun, rfl, hd, by simpa using h.symm⟩)))
          · simp only [hp, hd] at h
            exact .inr (.inr (.inr (.inr ⟨x, rest, i, hrun, rfl, hd, h⟩)))
  · rw [if_pos hf] at h
    cases h

/-- R117: a faulted block performs nothing. -/
theorem step_faulted {s : State} (h : s.fault ≠ .none) : step s = .fault (.runEnded s.fault) := by
  simp [step, State.fetch, h]

/-- R127: a reset that is asked for. -/
theorem step_reset {s : State} (hf : s.fault = .none) (hr : s.resetReq = true) : step s = .next s.resetInRun := by
  simp [step, State.fetch, hf, hr]

/-- R116: an illegal configuration. -/
theorem step_illegal {s : State} (hf : s.fault = .none) (hr : s.resetReq = false) (hc : s.cfg.legal = false) :
    step s = .next s.refuse := by
  simp [step, State.fetch, hf, hr, hc]

/-- R16: nothing is pending. -/
theorem step_waiting {s : State} (h : s.Running) (hp : s.pending = []) : step s = .next s := by
  simp [step, State.fetch, h.1, h.2.1, h.2.2, hp]

/-- R116: the decoder refuses. -/
theorem step_refused {s : State} (h : s.Running) {x : HostInput} {rest : List HostInput} {e : DecodeError}
    (hp : s.pending = x :: rest) (hd : decode x = .error e) : step s = .next { s.refuse with pending := rest } := by
  simp [step, State.fetch, h.1, h.2.1, h.2.2, hp, hd]

/-! ### What an instruction does with the lines -/

/-- R76: SEND in an open session. -/
theorem State.sendByte_open {s : State} (h : s.bus.sessOpen = true) (b : Byte) :
    s.sendByte b = State.finish { s with bus := (s.bus.shiftByte b).2 } (.ack s.bus.nextAck) := by
  simp [State.sendByte, h]

/-- R76, R115: SEND with no session open. -/
theorem State.sendByte_closed {s : State} (h : s.bus.sessOpen = false) (b : Byte) :
    s.sendByte b = s.raiseFault .f2NoSession 0x03#8 (some b) := by
  simp [State.sendByte, h]

/-- R99: how many bytes a refresh sends. -/
theorem byteCount_refreshFrames (c : Config) (tx : List Byte) (l : Level) :
    byteCount (refreshFrames c tx l) =
      match c.addrMode with
      | .auto => tx.length + 3
      | .fixed => 2 * tx.length + 2 := by
  unfold refreshFrames
  cases c.addrMode
  · simp [byteCount]
    omega
  · have h : ∀ (tx : List Byte) (p : Nat), ((fixedFrames c p tx).map List.length).sum = 2 * tx.length := by
      intro tx
      induction tx with
      | nil => intro p; rfl
      | cons x tx ih =>
        intro p
        simp [fixedFrames, ih]
        omega
    simp [byteCount, h]
    omega

/-- How many bytes the refresh of a state sends. -/
def State.refreshBytes (s : State) : Nat :=
  byteCount (refreshFrames s.cfg (s.disp.txView s.cfg) s.lvl)

/-- R99: a refresh sends at least one byte. -/
theorem State.refreshBytes_pos (s : State) : 0 < s.refreshBytes := by
  rw [State.refreshBytes, byteCount_refreshFrames]
  cases s.cfg.addrMode <;> simp

/-- R99: what a refresh does with the lines. -/
theorem State.refreshBody_eq (s : State) :
    s.refreshBody =
      ((s.bus.draws s.refreshBytes).any id,
       { s.bus with
         clkLvl := true, dioDir := .out, dioLvl := true, sessOpen := false
         acks := s.bus.acks.drop s.refreshBytes, samples := s.bus.samples + s.refreshBytes
         emitted :=
          (framesEvents (refreshFrames s.cfg (s.disp.txView s.cfg) s.lvl) (s.bus.draws s.refreshBytes)).reverse
            ++ s.bus.emitted }) := by
  rw [State.refreshBody, Bus.frames_eq _ _ _ (refreshFrames_frame_ne_nil _ _ _) (refreshFrames_ne_nil _ _ _)]
  simp [State.refreshBytes]

/-- R99: REFRESH with no session open. -/
theorem execRefresh_closed {s : State} (h : s.bus.sessOpen = false) :
    execRefresh s = State.finish { s with bus := s.refreshBody.2 } (.ack s.refreshBody.1) := by
  simp [execRefresh, h]

/-! ### Animations -/

/-- R101: everything an animation operation can be. -/
theorem State.animate_cases (s : State) (k : AnimKind) (opcode : Byte) (d now : Millis) (next : State) :
    (s.anim.kind ≠ k ∧ s.animate k opcode d now next = State.finish (s.startAnim k d now) .none) ∨
    (s.anim.kind = k ∧ s.anim.due now = false ∧ s.animate k opcode d now next = s.finish .none) ∨
    (s.anim.kind = k ∧ s.anim.due now = true ∧ s.bus.sessOpen = true ∧
      s.animate k opcode d now next = s.raiseFault .f3FrameInSession opcode none) ∨
    (s.anim.kind = k ∧ s.anim.due now = true ∧ s.bus.sessOpen = false ∧
      s.animate k opcode d now next = next.finishStep) := by
  unfold State.animate
  by_cases hk : s.anim.kind = k
  · by_cases hd : s.anim.due now = true
    · by_cases ho : s.bus.sessOpen = true
      · simp [hk, hd, ho]
      · simp [hk, hd, ho]
    · simp [hk, hd]
  · simp [hk]

/-- R101: an operation of another kind starts its animation. -/
theorem State.animate_start {s : State} {k : AnimKind} (h : s.anim.kind ≠ k) (opcode : Byte) (d now : Millis)
    (next : State) : s.animate k opcode d now next = State.finish (s.startAnim k d now) .none := by
  simp [State.animate, h]

/-- R101: an early tick. -/
theorem State.animate_early {s : State} {k : AnimKind} (h : s.anim.kind = k) (now : Millis)
    (hd : s.anim.due now = false) (opcode : Byte) (d : Millis) (next : State) :
    s.animate k opcode d now next = s.finish .none := by
  simp [State.animate, h, hd]

/-- R101: a due tick with no session open. -/
theorem State.animate_due {s : State} {k : AnimKind} (h : s.anim.kind = k) {now : Millis} (hd : s.anim.due now = true)
    (ho : s.bus.sessOpen = false) (opcode : Byte) (d : Millis) (next : State) :
    s.animate k opcode d now next = next.finishStep := by
  simp [State.animate, h, hd, ho]

/-- R103: a blink step from a lit display. -/
theorem State.stepBlink_lit {s : State} (h : s.lvl ≠ 0#4) :
    s.stepBlink = { s with lvl := 0#4, anim := { s.anim with saved := s.lvl } } := by
  simp [State.stepBlink, blinkLevel, blinkSaved, h]

/-- R103: a blink step from off. -/
theorem State.stepBlink_off {s : State} (h : s.lvl = 0#4) : s.stepBlink = { s with lvl := s.anim.saved } := by
  simp [State.stepBlink, blinkLevel, blinkSaved, h]

/-- R106: a scroll step within the content. -/
theorem State.stepScroll_within {s : State} (h : s.disp.win + 1 ≤ s.disp.len) :
    s.stepScroll = { s with disp := { s.disp with win := s.disp.win + 1 } } := by
  simp [State.stepScroll, Nat.not_lt.2 h]

/-- R106: the scroll step that ends the scroll. -/
theorem State.stepScroll_end {s : State} (h : s.disp.len < s.disp.win + 1) :
    s.stepScroll = { s with disp := { s.disp with win := 0 }, anim := { s.anim with kind := .idle } } := by
  simp [State.stepScroll, h]

/-- R105: level 8 is the one whose number is 8. -/
theorem eq_topLevel_iff (l : Level) : l = topLevel ↔ l.toNat = 8 := by
  revert l
  decide +kernel

/-- R101: the refresh at the end of a step is REFRESH of the state the step left. -/
theorem State.finishStep_eq {s : State} (h : s.bus.sessOpen = false) : s.finishStep = exec .refresh s :=
  (execRefresh_closed h).symm

/-! ### What any instruction does with the lines -/

/-- R18, R113: an instruction leaves the lines as they are, opens a session, closes one, shifts one byte out, or refreshes
in frames of its own. -/
theorem exec_bus {i : Instr} {s t : State} (h : exec i s = .next t) :
    t.bus = s.bus ∨ (s.bus.sessOpen = false ∧ t.bus = s.bus.startFrame) ∨
      (s.bus.sessOpen = true ∧ t.bus = s.bus.stopFrame) ∨
      (s.bus.sessOpen = true ∧ ∃ b, t.bus = (s.bus.shiftByte b).2) ∨
      (s.bus.sessOpen = false ∧ ∃ u : State, u.bus = s.bus ∧ t.bus = u.refreshBody.2) := by
  have send : ∀ b, s.sendByte b = .next t →
      t.bus = s.bus ∨ (s.bus.sessOpen = true ∧ ∃ b, t.bus = (s.bus.shiftByte b).2) := by
    intro b h
    simp only [State.sendByte] at h
    split at h <;> cases h
    · exact .inr ⟨‹_›, b, rfl⟩
    · exact .inl rfl
  have anim : ∀ k opcode d now next, s.animate k opcode d now next = .next t → next.bus = s.bus →
      t.bus = s.bus ∨ (s.bus.sessOpen = false ∧ ∃ u : State, u.bus = s.bus ∧ t.bus = u.refreshBody.2) := by
    intro k opcode d now next h hn
    rcases State.animate_cases s k opcode d now next with ⟨-, h'⟩ | ⟨-, -, h'⟩ | ⟨-, -, -, h'⟩ | ⟨-, -, c, h'⟩ <;>
      rw [h'] at h <;> cases h
    · exact .inl rfl
    · exact .inl rfl
    · exact .inl rfl
    · exact .inr ⟨c, next, hn, rfl⟩
  cases i
  case beginFrame => simp only [exec, execBegin] at h; split at h <;> cases h <;> simp_all
  case endFrame => simp only [exec, execEnd] at h; split at h <;> cases h <;> simp_all
  case refresh =>
    simp only [exec, execRefresh] at h
    split at h <;> cases h
    · exact .inl rfl
    · exact .inr (.inr (.inr (.inr ⟨by simp_all, s, rfl, rfl⟩)))
  case send | wireDataAuto | wireDataFixed | wireAddr | wireDispOff | wireDispOn | wirePayload =>
    rcases send _ h with h | h
    · exact .inl h
    · exact .inr (.inr (.inr (.inl h)))
  case blink | fadeOut | fadeIn | scroll =>
    rcases anim _ _ _ _ _ h rfl with h | h
    · exact .inl h
    · exact .inr (.inr (.inr (.inr h)))
  all_goals cases h; exact .inl rfl

/-- R49: a refresh adds its frames to the end of the trace. -/
theorem State.refreshBody_trace (s : State) :
    s.refreshBody.2.trace =
      s.bus.trace ++ framesEvents (refreshFrames s.cfg (s.disp.txView s.cfg) s.lvl) (s.bus.draws s.refreshBytes) := by
  simp [State.refreshBody_eq, Bus.trace]

end Sys2Proof.Machine
end

