-- ==== Sys2Proof/Laws/PerInstr.lean ====
section
/-! SUPPORT. Statements made of every instruction, one lemma for each constructor. -/

set_option Elab.async false

namespace Sys2Proof.Laws

/-- An instruction's encoding has the bits of the row of spec/opcode_table.json that bears its mnemonic, and of no other
row of its format. -/
def EncodingRow.Statement (i : Instr) : Prop :=
  ∃ r ∈ (encode i).rows, r.mnemonic = i.mnemonic ∧
    ∀ q ∈ (encode i).rows, q.covers (encode i).tableByte = true ↔ q = r

/-- R60: every address byte is of the WIRE_ADDR row alone. -/
theorem wireRows_wireAddr (a : BitVec 4) :
    ∀ q ∈ wireRows, q.covers (wireAddrByte a) = true ↔ q = ⟨"WIRE_ADDR", "WIRE_ADDR", 0xC0#8, 0xF0#8⟩ := by
  revert a
  decide +kernel

/-- R61: every display-on byte is of the WIRE_DISP_ON row alone. -/
theorem wireRows_wireDispOn (ppp : BitVec 3) :
    ∀ q ∈ wireRows, q.covers (wireDispOnByte ppp) = true ↔ q = ⟨"WIRE_DISP_ON", "WIRE_DISP", 0x88#8, 0xF8#8⟩ := by
  revert ppp
  decide +kernel

/-- R54: every byte is of the WIRE_PAYLOAD row, the one row of its format. -/
theorem segRows_any (b : Byte) :
    ∀ q ∈ segRows, q.covers b = true ↔ q = ⟨"WIRE_PAYLOAD", "SEGCODE", 0x00#8, 0x00#8⟩ := by
  intro q hq
  obtain rfl : q = _ := List.mem_singleton.1 hq
  simp [TableRow.covers]

/-- The opcode of a host operation is of its row alone. -/
theorem hostRows_alone : ∀ r ∈ hostRows, ∀ q ∈ hostRows, q.covers r.matchBits = true ↔ q = r := by
  decide +kernel

/-- A host operation with its row's opcode and mnemonic. -/
theorem EncodingRow.of_hostRow {i : Instr} {c : HostCall} (r : TableRow) (hr : r ∈ hostRows) (hi : encode i = .call c)
    (ho : c.opcode = r.matchBits) (hm : r.mnemonic = i.mnemonic) : EncodingRow.Statement i := by
  refine ⟨r, ?_, hm, ?_⟩
  · rw [hi]
    exact hr
  · rw [hi]
    intro q hq
    simpa [HostInput.tableByte, ho] using hostRows_alone r hr q hq

/-- A wire command byte that is of one row alone, and that row's mnemonic. -/
theorem EncodingRow.of_wireRow {i : Instr} {b : Byte} (r : TableRow) (hr : r ∈ wireRows) (hi : encode i = .command b)
    (ha : ∀ q ∈ wireRows, q.covers b = true ↔ q = r) (hm : r.mnemonic = i.mnemonic) : EncodingRow.Statement i := by
  refine ⟨r, ?_, hm, ?_⟩
  · rw [hi]
    exact hr
  · rw [hi]
    exact ha

theorem EncodingRow.beginFrame : EncodingRow.Statement .beginFrame :=
  EncodingRow.of_hostRow ⟨"BEGIN", "HOSTOP", 0x01#8, 0xFF#8⟩ (by decide +kernel) rfl rfl rfl

theorem EncodingRow.endFrame : EncodingRow.Statement .endFrame :=
  EncodingRow.of_hostRow ⟨"END", "HOSTOP", 0x02#8, 0xFF#8⟩ (by decide +kernel) rfl rfl rfl

theorem EncodingRow.send (b : Byte) : EncodingRow.Statement (.send b) :=
  EncodingRow.of_hostRow ⟨"SEND", "HOSTOP", 0x03#8, 0xFF#8⟩ (by decide +kernel) rfl rfl rfl

theorem EncodingRow.encodeSym (sym : Byte) : EncodingRow.Statement (.encodeSym sym) :=
  EncodingRow.of_hostRow ⟨"ENCODE", "HOSTOP", 0x10#8, 0xFF#8⟩ (by decide +kernel) rfl rfl rfl

theorem EncodingRow.setContent (syms : List Byte) (off : Byte) (ovf pad : Bool) :
    EncodingRow.Statement (.setContent syms off ovf pad) :=
  EncodingRow.of_hostRow ⟨"SETCONTENT", "HOSTOP", 0x11#8, 0xFF#8⟩ (by decide +kernel) rfl rfl rfl

theorem EncodingRow.setNumber (v : Int32Word) (off : Byte) (ovf pad : Bool) :
    EncodingRow.Statement (.setNumber v off ovf pad) :=
  EncodingRow.of_hostRow ⟨"SETNUMBER", "HOSTOP", 0x12#8, 0xFF#8⟩ (by decide +kernel) rfl rfl rfl

theorem EncodingRow.overlay : EncodingRow.Statement .overlay :=
  EncodingRow.of_hostRow ⟨"OVERLAY", "HOSTOP", 0x13#8, 0xFF#8⟩ (by decide +kernel) rfl rfl rfl

theorem EncodingRow.clear : EncodingRow.Statement .clear :=
  EncodingRow.of_hostRow ⟨"CLEAR", "HOSTOP", 0x14#8, 0xFF#8⟩ (by decide +kernel) rfl rfl rfl

theorem EncodingRow.setColon (c : Bool) : EncodingRow.Statement (.setColon c) :=
  EncodingRow.of_hostRow ⟨"SETCOLON", "HOSTOP", 0x15#8, 0xFF#8⟩ (by decide +kernel) rfl rfl rfl

theorem EncodingRow.setDp (m : Byte) : EncodingRow.Statement (.setDp m) :=
  EncodingRow.of_hostRow ⟨"SETDP", "HOSTOP", 0x16#8, 0xFF#8⟩ (by decide +kernel) rfl rfl rfl

theorem EncodingRow.fromLevel (n : Int32Word) : EncodingRow.Statement (.fromLevel n) :=
  EncodingRow.of_hostRow ⟨"FROMLEVEL", "HOSTOP", 0x20#8, 0xFF#8⟩ (by decide +kernel) rfl rfl rfl

theorem EncodingRow.toPercent (l : Fin 9) : EncodingRow.Statement (.toPercent l) :=
  EncodingRow.of_hostRow ⟨"TOPERCENT", "HOSTOP", 0x21#8, 0xFF#8⟩ (by decide +kernel) rfl rfl rfl

theorem EncodingRow.fromPercent (p : Rat) : EncodingRow.Statement (.fromPercent p) :=
  EncodingRow.of_hostRow ⟨"FROMPERCENT", "HOSTOP", 0x22#8, 0xFF#8⟩ (by decide +kernel) rfl rfl rfl

theorem EncodingRow.setLevel (n : Int32Word) : EncodingRow.Statement (.setLevel n) :=
  EncodingRow.of_hostRow ⟨"SETLEVEL", "HOSTOP", 0x23#8, 0xFF#8⟩ (by decide +kernel) rfl rfl rfl

theorem EncodingRow.setPercent (p : Rat) : EncodingRow.Statement (.setPercent p) :=
  EncodingRow.of_hostRow ⟨"SETPERCENT", "HOSTOP", 0x24#8, 0xFF#8⟩ (by decide +kernel) rfl rfl rfl

theorem EncodingRow.refresh : EncodingRow.Statement .refresh :=
  EncodingRow.of_hostRow ⟨"REFRESH", "HOSTOP", 0x30#8, 0xFF#8⟩ (by decide +kernel) rfl rfl rfl

theorem EncodingRow.blink (d now : Millis) : EncodingRow.Statement (.blink d now) :=
  EncodingRow.of_hostRow ⟨"BLINK", "HOSTOP", 0x40#8, 0xFF#8⟩ (by decide +kernel) rfl rfl rfl

theorem EncodingRow.fadeOut (d now : Millis) : EncodingRow.Statement (.fadeOut d now) :=
  EncodingRow.of_hostRow ⟨"FADEOUT", "HOSTOP", 0x41#8, 0xFF#8⟩ (by decide +kernel) rfl rfl rfl

theorem EncodingRow.fadeIn (d now : Millis) : EncodingRow.Statement (.fadeIn d now) :=
  EncodingRow.of_hostRow ⟨"FADEIN", "HOSTOP", 0x42#8, 0xFF#8⟩ (by decide +kernel) rfl rfl rfl

theorem EncodingRow.scroll (d now : Millis) : EncodingRow.Statement (.scroll d now) :=
  EncodingRow.of_hostRow ⟨"SCROLL", "HOSTOP", 0x43#8, 0xFF#8⟩ (by decide +kernel) rfl rfl rfl

theorem EncodingRow.resetAnim : EncodingRow.Statement .resetAnim :=
  EncodingRow.of_hostRow ⟨"RESETANIM", "HOSTOP", 0x44#8, 0xFF#8⟩ (by decide +kernel) rfl rfl rfl

theorem EncodingRow.wireDataAuto : EncodingRow.Statement .wireDataAuto :=
  EncodingRow.of_wireRow ⟨"WIRE_DATA_AUTO", "WIRE_DATA", 0x40#8, 0xFF#8⟩ (by decide +kernel) rfl (by decide +kernel) rfl

theorem EncodingRow.wireDataFixed : EncodingRow.Statement .wireDataFixed :=
  EncodingRow.of_wireRow ⟨"WIRE_DATA_FIXED", "WIRE_DATA", 0x44#8, 0xFF#8⟩ (by decide +kernel) rfl (by decide +kernel) rfl

theorem EncodingRow.wireAddr (a : BitVec 4) : EncodingRow.Statement (.wireAddr a) :=
  EncodingRow.of_wireRow _ (by decide +kernel) rfl (wireRows_wireAddr a) rfl

theorem EncodingRow.wireDispOff : EncodingRow.Statement .wireDispOff :=
  EncodingRow.of_wireRow ⟨"WIRE_DISP_OFF", "WIRE_DISP", 0x80#8, 0xFF#8⟩ (by decide +kernel) rfl (by decide +kernel) rfl

theorem EncodingRow.wireDispOn (ppp : BitVec 3) : EncodingRow.Statement (.wireDispOn ppp) :=
  EncodingRow.of_wireRow _ (by decide +kernel) rfl (wireRows_wireDispOn ppp) rfl

theorem EncodingRow.wirePayload (code : Byte) : EncodingRow.Statement (.wirePayload code) :=
  ⟨_, List.mem_singleton.2 rfl, rfl, segRows_any code⟩

end Sys2Proof.Laws
end

