-- ==== Sys2Proof/Tests/Slice0.lean ====
section
/-! SUPPORT. The model's own tests: the well-formedness smoke test, each constructor's decoding from a word of the spec's
encoding, one or two steps of each instruction from spec/95_test_vectors.md (its identifiers stand in the comments), and
a witness for each statement that has hypotheses. -/

namespace Sys2Proof.Tests

-- one proof at a time: each evaluation in the kernel would otherwise wait in a thread of its own
set_option Elab.async false

open Sys2Proof.Machine

/-! ### Small states -/

/-- The state an outcome leaves, or the reset state. -/
def stateOf : Host.Outcome State Fault Refusal → State
  | .next s => s
  | .fault _ => State.reset
  | .refused _ => State.reset

/-- Reset, with a chip that acknowledges the next sixteen bytes. -/
def start : State := { State.reset with bus := { State.reset.bus with acks := List.replicate 16 false } }

/-- The state after some instructions. -/
def after (is : List Instr) (s : State) : State := is.foldl (fun s i => stateOf (exec i s)) s

/-- The result of the last of some instructions. -/
def lastResult (is : List Instr) : Option Result := (after is start).results.getLast?

/-- Reset, with what a host has issued. -/
def issued (xs : List HostInput) : State := { State.reset with pending := xs }

/-- The level a DIO event writes. -/
def dioOf : Event → Option Bool
  | .dio v => some v
  | .clk _ | .dir _ | .hold _ | .sample _ => none

/-- B1 of the vectors: `SETCONTENT "1234", 0, 0, 0`. -/
def show1234 : Instr := .setContent [0x31#8, 0x32#8, 0x33#8, 0x34#8] 0x00#8 false false

/-- B3 of the vectors: `SETCONTENT "123456", 0, 1, 0`. -/
def show123456 : Instr := .setContent [0x31#8, 0x32#8, 0x33#8, 0x34#8, 0x35#8, 0x36#8] 0x00#8 true false

/-! ### Well-formedness -/

/-- R66: a symbol sequence of 255 symbols is well formed. -/
theorem test_wellFormed_255 :
    (Instr.setContent (List.replicate 255 0x31#8) 0x00#8 false false).wellFormed = true := by decide +kernel

/-- R66, X2: a symbol sequence of 256 symbols is not. -/
theorem test_illFormed_256 :
    (Instr.setContent (List.replicate 256 0x31#8) 0x00#8 false false).wellFormed = false := by decide +kernel

/-! ### Decoding (R59 to R68) -/

/-- R67, the transport and buffer rows, each from its opcode and an operand tuple. -/
theorem test_decode_transport_and_buffer :
    decode (.call ⟨0x01#8, []⟩) = .ok .beginFrame ∧
    decode (.call ⟨0x02#8, []⟩) = .ok .endFrame ∧
    decode (.call ⟨0x03#8, [.num 255]⟩) = .ok (.send 0xFF#8) ∧
    decode (.call ⟨0x10#8, [.num 52]⟩) = .ok (.encodeSym 0x34#8) ∧
    decode (.call ⟨0x11#8, [.syms [0x34, 0x32], .num 1, .num 0, .num 1]⟩) =
      .ok (.setContent [0x34#8, 0x32#8] 0x01#8 false true) ∧
    decode (.call ⟨0x12#8, [.num (-7), .num 2, .num 1, .num 0]⟩) = .ok (.setNumber (-7) 0x02#8 true false) ∧
    decode (.call ⟨0x13#8, []⟩) = .ok .overlay ∧
    decode (.call ⟨0x14#8, []⟩) = .ok .clear ∧
    decode (.call ⟨0x15#8, [.num 1]⟩) = .ok (.setColon true) ∧
    decode (.call ⟨0x16#8, [.num 9]⟩) = .ok (.setDp 0x09#8) := by decide +kernel

/-- R67, the brightness and animation rows. -/
theorem test_decode_brightness_and_animation :
    decode (.call ⟨0x20#8, [.num (-1)]⟩) = .ok (.fromLevel (-1)) ∧
    decode (.call ⟨0x21#8, [.num 8]⟩) = .ok (.toPercent 8) ∧
    decode (.call ⟨0x22#8, [.num (25 / 4)]⟩) = .ok (.fromPercent (25 / 4)) ∧
    decode (.call ⟨0x23#8, [.num 8]⟩) = .ok (.setLevel 8) ∧
    decode (.call ⟨0x24#8, [.num 100]⟩) = .ok (.setPercent 100) ∧
    decode (.call ⟨0x30#8, []⟩) = .ok .refresh ∧
    decode (.call ⟨0x40#8, [.num 200, .num 1000]⟩) = .ok (.blink 200 1000) ∧
    decode (.call ⟨0x41#8, [.num 100, .num 0]⟩) = .ok (.fadeOut 100 0) ∧
    decode (.call ⟨0x42#8, [.num 32, .num 4294967280]⟩) = .ok (.fadeIn 32 0xFFFFFFF0) ∧
    decode (.call ⟨0x43#8, [.num 250, .num 2750]⟩) = .ok (.scroll 250 2750) ∧
    decode (.call ⟨0x44#8, []⟩) = .ok .resetAnim := by decide +kernel

/-- R59 to R61, R63: the wire classes, from bytes written bit by bit; a reserved byte is of none. -/
theorem test_decode_wire :
    decode (.command 0b01000000#8) = .ok .wireDataAuto ∧
    decode (.command 0b01000100#8) = .ok .wireDataFixed ∧
    decode (.command 0b11000101#8) = .ok (.wireAddr 5#4) ∧
    decode (.command 0b10000000#8) = .ok .wireDispOff ∧
    decode (.command 0b10001111#8) = .ok (.wireDispOn 7#3) ∧
    decode (.content 0b01000000#8) = .ok (.wirePayload 0x40#8) ∧
    decode (.command 0b01001000#8) = .error .notACommandByte := by decide

/-- The rows of each format have no byte in common, so that no encoding of a format has two meanings. -/
theorem test_rows_do_not_overlap :
    (hostRows.map TableRow.matchBits).Nodup ∧
    wireRows.Pairwise (fun r q => (r.matchBits ^^^ q.matchBits) &&& r.mask &&& q.mask ≠ 0x00#8) := by decide +kernel

/-- R66, X2: an operand just outside its type, and a sequence of 256 symbols. -/
theorem test_decode_refuses_operands :
    decode (.call ⟨0x21#8, [.num 9]⟩) = .error .operandOutsideType ∧
    decode (.call ⟨0x03#8, [.num 256]⟩) = .error .operandOutsideType ∧
    decode (.call ⟨0x03#8, [.num (1 / 2)]⟩) = .error .operandOutsideType ∧
    decode (.call ⟨0x15#8, [.num 2]⟩) = .error .operandOutsideType ∧
    decode (.call ⟨0x23#8, [.num 2147483648]⟩) = .error .operandOutsideType ∧
    decode (.call ⟨0x11#8, [.syms (List.replicate 256 0x31), .num 0, .num 0, .num 0]⟩) =
      .error .operandOutsideType ∧
    decode (.call ⟨0x30#8, [.num 0]⟩) = .error .operandCount := by decide +kernel

/-- The table's words: a host opcode's, a wire command byte's and a content byte's. -/
theorem test_decodeTableWord :
    decodeTableWord 8 0x12 = some (.setNumber 0 0x00#8 false false) ∧
    decodeTableWord 8 0x88 = some (.wireDispOn 0#3) ∧ decodeTableWord 8 0x00 = some (.wirePayload 0x00#8) := by
  decide +kernel

/-- A word placed with `withFetchWord` is the first instruction a step runs after reset. -/
theorem test_withFetchWord :
    stateOf (step (State.reset.withFetchWord 8 0x03)) = stateOf (exec (.send 0x00#8) State.reset) ∧
    stateOf (step (State.reset.withFetchWord 8 0x02)) = stateOf (exec .endFrame State.reset) := by decide

/-! ### Assembly lines (R70, R71) -/

theorem test_assemble_operation :
    assembleLine "SETCONTENT \"1234\", off=0, ovf=0, pad=1 ; P1".toList =
      .ok [⟨0x11#8, [.syms [0x31, 0x32, 0x33, 0x34], .num 0, .num 0, .num 1]⟩] := by decide +kernel

theorem test_assemble_pseudo :
    assembleLine "SHOWNUM -7".toList = .ok [⟨0x12#8, [.num (-7), .num 0, .num 0, .num 0]⟩, ⟨0x30#8, []⟩] ∧
    assembleLine "FRAME 0xC0, 4".toList =
      .ok [⟨0x01#8, []⟩, ⟨0x03#8, [.num 192]⟩, ⟨0x03#8, [.num 4]⟩, ⟨0x02#8, []⟩] ∧
    assembleLine "FROMPERCENT 6.26".toList = .ok [⟨0x22#8, [.num (313 / 50)]⟩] := by decide +kernel

/-! ### Transport (T2 to T6, W9) -/

/-- W10: the six events of BEGIN from reset. -/
theorem test_begin : (after [.beginFrame] start).bus.trace =
    [.dir .out, .dio true, .clk true, .hold .tBit, .dio false, .hold .tBit] := by decide

/-- T6: a second BEGIN faults and emits nothing. -/
theorem test_begin_faults :
    (after [.beginFrame, .beginFrame] start).fault = .f1SessionOpen ∧
    (after [.beginFrame, .beginFrame] start).bus = (after [.beginFrame] start).bus := by decide

/-- T6, W11: BEGIN then END is 14 events and leaves the lines idle. -/
theorem test_end :
    (after [.beginFrame, .endFrame] start).bus.trace.length = 14 ∧
    (after [.beginFrame, .endFrame] start).bus.sessOpen = false := by decide

/-- T6: END with no session faults. -/
theorem test_end_faults : (after [.endFrame] start).fault = .f2NoSession := by decide

/-- T3: bit cell 6 of `SEND 0x40` is the one that is 1, and the acknowledgement follows the eighth. -/
theorem test_send :
    ((after [.beginFrame, .send 0x40#8] start).bus.trace.drop 6).filterMap dioOf =
      [false, false, false, false, false, false, true, false, true, false] := by decide +kernel

/-- T4, W9: a SEND that is not acknowledged returns 1, emits 47 events and leaves the latch high. -/
theorem test_send_nack :
    let s := after [.beginFrame, .send 0x40#8] { State.reset with bus := { State.reset.bus with acks := [true] } }
    s.results = [.none, .ack true] ∧ s.bus.trace.length = 53 ∧ s.bus.dioLvl = true := by decide +kernel

/-- T6: SEND with no session faults and records its byte. -/
theorem test_send_faults :
    (after [.send 0x40#8] start).faultRecord = some ⟨0x03#8, some 0x40#8⟩ ∧
    (after [.send 0x40#8] start).bus = start.bus := by decide

/-- R59 to R63: a frame of wire bytes carries the bytes of the classes' patterns. -/
theorem test_wire_bytes :
    frameBytes (after [.beginFrame, .wireDataAuto, .wireDataFixed, .wireAddr 3#4, .wireDispOff, .wireDispOn 7#3,
      .wirePayload 0x86#8, .endFrame] start).bus.trace = [[0x40#8, 0x44#8, 0xC3#8, 0x80#8, 0x8F#8, 0x86#8]] := by
  decide +kernel

/-! ### Encoder and buffer (E1 to E2, B1 to B15, N1 to N18, O1 to O9) -/

theorem test_encode : lastResult [.encodeSym 0x34#8] = some (.code 0x66#8) := by decide

theorem test_encode_unmapped : lastResult [.encodeSym 0x80#8] = some (.code 0x00#8) := by decide

/-- B4: cells before the offset are retained. -/
theorem test_setContent_offset :
    (after [.setContent [0x39#8, 0x38#8, 0x37#8, 0x36#8] 0x00#8 false false,
        .setContent [0x31#8, 0x32#8] 0x02#8 false false] start).disp.buf =
      [(0, 0x6F#8), (1, 0x7F#8), (2, 0x06#8), (3, 0x5B#8)] := by decide +kernel

/-- B12: padding fills up to the window with the zero code. -/
theorem test_setContent_pad :
    let d := (after [.setContent [0x31#8, 0x32#8] 0x01#8 false true] start).disp
    d.buf = [(1, 0x06#8), (2, 0x5B#8), (3, 0x3F#8)] ∧ d.len = 4 := by decide +kernel

/-- N6, W5: a negative number is not zero-padded. -/
theorem test_setNumber_negative :
    let d := (after [.setNumber (-7) 0x00#8 false true] start).disp
    d.buf = [(2, 0x40#8), (3, 0x07#8)] ∧ d.len = 4 := by decide +kernel

/-- N13: the most negative number. -/
theorem test_setNumber_least :
    (after [.setNumber (BitVec.ofInt 32 (-2147483648)) 0x00#8 true false] start).disp.buf.map Prod.snd =
      [0x40#8, 0x5B#8, 0x06#8, 0x66#8, 0x07#8, 0x66#8, 0x7F#8, 0x4F#8, 0x7D#8, 0x66#8, 0x7F#8] := by
  decide +kernel

/-- O1: a decimal point at position 1. -/
theorem test_overlay_dp :
    lastResult [show1234, .setDp 0b0010#8, .overlay] = some (.view [0x06#8, 0xDB#8, 0x4F#8, 0x66#8]) := by
  decide +kernel

/-- O7: the window at W = 1. -/
theorem test_overlay_window :
    lastResult [show123456, .scroll 10 0, .scroll 10 10, .overlay] =
      some (.view [0x5B#8, 0x4F#8, 0x66#8, 0x6D#8]) := by decide +kernel

/-- O6. -/
theorem test_clear :
    (after [show1234, .setColon true, .clear] start).disp = State.reset.disp := by decide +kernel

/-- O2, W6. -/
theorem test_setColon :
    lastResult [show1234, .setColon true, .overlay] = some (.view [0x86#8, 0xDB#8, 0xCF#8, 0xE6#8]) := by
  decide +kernel

/-- O4: the mask's bits past the window are dropped. -/
theorem test_setDp : (after [.setDp 0xFF#8] start).disp.dp = 0x0F#8 := by decide

/-! ### Brightness (V1 to V5) -/

/-- V2. -/
theorem test_fromLevel :
    lastResult [.fromLevel 5] = some (.level 5#4) ∧ lastResult [.fromLevel (-1)] = some (.level 8#4) := by decide

/-- V3, with the defaults of R93 as they are written there. -/
theorem test_toPercent :
    defaultPct = #v[0, 25 / 4, 25 / 2, 25, 125 / 2, 275 / 4, 75, 325 / 4, 175 / 2] ∧
    lastResult [.toPercent 8] = some (.percent (175 / 2)) := by decide +kernel

/-- V4: at a level's percent, just above it, and above every percent. -/
theorem test_fromPercent :
    lastResult [.fromPercent (125 / 2)] = some (.level 4#4) ∧
    lastResult [.fromPercent (313 / 50)] = some (.level 2#4) ∧
    lastResult [.fromPercent 200] = some (.level 8#4) := by decide +kernel

/-- V5. -/
theorem test_setLevel : (after [.setLevel 12] start).lvl = 8#4 ∧ (after [.setLevel 3] start).lvl = 3#4 := by decide

/-- V5. -/
theorem test_setPercent : (after [.setPercent 100] start).lvl = 8#4 := by decide +kernel

/-- V1. -/
theorem test_dispCtrl :
    [0#4, 1#4, 2#4, 3#4, 4#4, 5#4, 6#4, 7#4, 8#4].map (dispCtrl Config.tc0) =
      [0x80#8, 0x88#8, 0x89#8, 0x8A#8, 0x8B#8, 0x8C#8, 0x8D#8, 0x8E#8, 0x8F#8] := by decide

/-! ### Refresh and animations (RF1 to RF5, A1 to A12) -/

/-- RF1, P1: the frames of a refresh. -/
theorem test_refresh_auto :
    let s := after [show1234, .setColon true, .setLevel 8, .refresh] start
    frameBytes s.bus.trace = [[0x40#8], [0xC0#8, 0x86#8, 0xDB#8, 0xCF#8, 0xE6#8], [0x8F#8]] ∧
      s.bus.trace.length = 378 ∧ s.results.getLast? = some (.ack false) := by decide +kernel

/-- RF2: the frames of a refresh with fixed addressing. -/
theorem test_refresh_fixed :
    frameBytes (after [show1234, .setLevel 3, .refresh]
        { start with cfg := { Config.tc0 with addrMode := .fixed } }).bus.trace =
      [[0x44#8], [0xC0#8, 0x06#8], [0xC1#8, 0x5B#8], [0xC2#8, 0x4F#8], [0xC3#8, 0x66#8], [0x8A#8]] := by
  decide +kernel

/-- A1: the first due tick turns the display off. -/
theorem test_blink :
    let s := after [.setLevel 5, .blink 200 1000, .blink 200 1200] start
    s.lvl = 0#4 ∧ s.anim = ⟨.blink, 200, 1200, 5#4⟩ ∧ (frameBytes s.bus.trace).getLast? = some [0x80#8] := by
  decide +kernel

/-- A2: a tick's own interval is ignored. -/
theorem test_blink_early : lastResult [.blink 200 1000, .blink 50 1100] = some .none := by decide

/-- A4: the last step of a fade-out ends it at level 1. -/
theorem test_fadeOut :
    let s := after [.setLevel 2, .fadeOut 100 600, .fadeOut 100 700] start
    s.lvl = 1#4 ∧ s.anim.kind = .idle ∧ (frameBytes s.bus.trace).getLast? = some [0x88#8] := by decide +kernel

/-- A7: a fade-out from off stays off. -/
theorem test_fadeOut_off :
    let s := after [.fadeOut 10 0, .fadeOut 10 10] start
    s.lvl = 0#4 ∧ s.anim.kind = .idle := by decide +kernel

/-- A8: the clock wraps. -/
theorem test_fadeIn_wrap :
    let s := after [.setLevel 4, .fadeIn 32 0xFFFFFFF0, .fadeIn 32 0x0F] start
    s.lvl = 4#4 ∧ (stateOf (exec (.fadeIn 32 0x10) s)).lvl = 5#4 := by decide +kernel

/-- A6: the step to level 8 ends the fade. -/
theorem test_fadeIn_top :
    let s := after [.setLevel 7, .fadeIn 100 700, .fadeIn 100 800] start
    s.lvl = 8#4 ∧ s.anim.kind = .idle := by decide +kernel

/-- P3: the first step's payload frame. -/
theorem test_scroll :
    frameBytes (after [.setLevel 4, show123456, .scroll 250 1000, .scroll 250 1250] start).bus.trace =
      [[0x40#8], [0xC0#8, 0x5B#8, 0x4F#8, 0x66#8, 0x6D#8], [0x8B#8]] := by decide +kernel

/-- A10: a scroll over no content ends at its first step. -/
theorem test_scroll_empty :
    let s := after [.scroll 5 0, .scroll 5 5] start
    s.anim.kind = .idle ∧ s.disp.win = 0 := by decide +kernel

/-- A11. -/
theorem test_resetAnim :
    let s := after [show123456, .scroll 100 0, .scroll 100 100, .resetAnim] start
    s.anim = ⟨.idle, 0, 0, 0#4⟩ ∧ s.disp.win = 0 ∧ s.disp.len = 6 := by decide +kernel

/-- A12: a due tick in an open session faults, and an early one does not. -/
theorem test_tick_in_session :
    (after [.scroll 10 0, .beginFrame, .scroll 10 10] start).fault = .f3FrameInSession ∧
    (after [.scroll 10 0, .beginFrame, .scroll 10 5] start).fault = .none := by decide +kernel

/-- R18, R29, R115: the numbers of the names. -/
theorem test_numbers :
    [Dir.inp, .out].map Dir.bit = [0#1, 1#1] ∧
    [AnimKind.idle, .blink, .fadeOut, .fadeIn, .scroll].map AnimKind.code = [0#3, 1#3, 2#3, 3#3, 4#3] ∧
    [FaultCode.f1SessionOpen, .f2NoSession, .f3FrameInSession].map FaultCode.number = [some 1, some 2, some 3] := by
  decide

/-! ### Steps (X1, X3) -/

/-- X1: an illegal opcode sets the mark and changes nothing else. -/
theorem test_step_illegal_opcode :
    stateOf (step (issued [.call ⟨0x05#8, []⟩])) = { State.reset with refused := true } := by decide

/-- X3: a cache smaller than the window. -/
theorem test_step_illegal_config :
    let s := { issued [.call ⟨0x14#8, []⟩] with cfg := { Config.tc0 with cacheCap := 3 } }
    stateOf (step s) = { s with refused := true } := by decide +kernel

/-- R117: the step after a fault ends the run. -/
theorem test_step_after_fault :
    step { State.reset with fault := .f2NoSession } = .fault (.runEnded .f2NoSession) := rfl

/-- R8: TC0 is legal. -/
theorem test_tc0_legal : Config.tc0.legal = true := by decide +kernel

/-! ### Witnesses

For each statement with hypotheses, a state and operands that meet them together, with one for each clause at a
boundary of its range. -/

/-- A session is open. -/
def opened : State := after [.beginFrame] start

/-- Content, an overlay and a level. -/
def shown : State := after [show1234, .setColon true, .setDp 0b0010#8, .setLevel 8] start

/-- A blink from level 5, started at 1000. -/
def blinking : State := after [.setLevel 5, .blink 200 1000] start

/-- A fade-out from level 3, started at 0. -/
def fadingOut : State := after [.setLevel 3, .fadeOut 100 0] start

/-- A fade-in from level 6, started just before the clock wraps. -/
def fadingIn : State := after [.setLevel 6, .fadeIn 32 0xFFFFFFF0] start

/-- A scroll over "1234", started at 1000. -/
def scrolling : State := after [show1234, .setLevel 4, .scroll 250 1000] start

/-- The invariant holds where there is content, an overlay and a level. -/
theorem witness_inv_shown : shown.Inv :=
  ⟨by decide +kernel, by decide +kernel, ⟨fun p hp => (dpMask_getLsbD (pN := 4) (by decide) 0b0010#8 p).trans (by
    have h : shown.cfg.pN = 4 := by decide +kernel
    simp [show ¬ p < 4 by omega]), by decide +kernel⟩, by decide +kernel, by decide +kernel⟩

/-- What holds on the wire in an open session. -/
theorem witness_wireOk_opened : opened.bus.LinesOk ∧ opened.bus.WireOk :=
  ⟨by decide, by constructor <;> decide⟩

theorem witness_DecodeOfEncodeIsTheInstruction :
    (Instr.setContent (List.replicate 255 0xFF#8) 0xFF#8 true true).wellFormed = true := by decide +kernel

theorem witness_EncodeOfDecodeIsTheInput : decode (.command 0xCF#8) = .ok (.wireAddr 15#4) := by decide

/-- The two ends of each range of unlisted opcodes, and a running state. -/
theorem witness_UnlistedOpcodesAreRefused :
    (∀ n ∈ [0x00, 0x04, 0x0F, 0x17, 0x1F, 0x25, 0x2F, 0x31, 0x3F, 0x45, 0xFF],
      decode (.call ⟨BitVec.ofNat 8 n, []⟩) = .error .illegalOpcode) ∧
    (∀ n ∈ [0x01, 0x03, 0x10, 0x16, 0x20, 0x24, 0x30, 0x40, 0x44],
      decode (.call ⟨BitVec.ofNat 8 n, []⟩) ≠ .error .illegalOpcode) ∧
    (issued [.call ⟨0x45#8, []⟩]).Running := by decide +kernel

/-- Each operand type at its last value, and the one after it. -/
theorem witness_OperandsOutsideTheirTypeAreRefused :
    (0x21#8, [OperandType.lvl]) ∈ operandTable ∧ List.Forall₂ OperandType.admits [.lvl] [.num 8] ∧
    ¬ List.Forall₂ OperandType.admits [.lvl] [.num 9] ∧ ¬ List.Forall₂ OperandType.admits [.lvl] [] ∧
    (issued [.call ⟨0x21#8, [.num 9]⟩]).Running := by
  refine ⟨by decide, .cons ⟨8, by omega, rfl⟩ .nil, ?_, ?_, by decide +kernel⟩
  · rintro (_ | ⟨⟨n, hn, h⟩, -⟩)
    have h' : (9 : Rat) = n := Operand.num.inj h
    have : 9 = n := by exact_mod_cast h'
    omega
  · rintro (_ | _)

/-- One configuration for each constraint of R7. -/
theorem witness_IllegalConfigurationsAreRefused :
    start.fault = .none ∧ start.resetReq = false ∧
    ({ Config.tc0 with pN := 0 }).pN = 0 ∧ 6 < ({ Config.tc0 with pN := 7 }).pN ∧
    ({ Config.tc0 with cacheCap := 3 }).cacheCap < ({ Config.tc0 with cacheCap := 3 }).pN ∧
    255 < ({ Config.tc0 with cacheCap := 256 }).cacheCap ∧
    (({ Config.tc0 with encEntries := [(0x61#8, 0x80#8)] }).enc 0x61#8).getLsbD 7 = true ∧
    ({ Config.tc0 with encEntries := [(0x30#8, 0x00#8)] }).enc 0x30#8 ≠ 0x3F#8 ∧
    ({ Config.tc0 with encEntries := [(0x80#8, 0x01#8)] }).enc 0x80#8 ≠ 0x00#8 ∧
    ({ Config.tc0 with defaultLevel := 0#4 }).defaultLevel = 0#4 ∧
    8 < ({ Config.tc0 with defaultLevel := 9#4 }).defaultLevel.toNat ∧
    8 < ({ Config.tc0 with resetLevel := 9#4 }).resetLevel.toNat := by decide +kernel

/-- Percent tables that break each constraint of R93. -/
theorem witness_IllegalPercents :
    (#v[1, 2, 3, 4, 5, 6, 7, 8, 9] : Vector Rat 9)[(0 : Fin 9)] ≠ 0 ∧
    (#v[0, 1, 1, 4, 5, 6, 7, 8, 9] : Vector Rat 9)[(2 : Fin 9)] ≤ (#v[0, 1, 1, 4, 5, 6, 7, 8, 9] : Vector Rat 9)[(1 : Fin 9)] ∧
    100 < (#v[0, 1, 2, 3, 4, 5, 6, 7, 101] : Vector Rat 9)[(8 : Fin 9)] ∧
    (∀ l : Fin 9, (#v[0, 25 / 2, 25, 75 / 2, 50, 125 / 2, 75, 175 / 2, 100] : Vector Rat 9)[l] =
      (l.val : Rat) / 8 * 100) := by decide +kernel

theorem witness_StepRunsTheDecodedInstruction :
    let s := issued [.call ⟨0x15#8, [.num 1]⟩]
    s.Running ∧ s.pending = [.call ⟨0x15#8, [.num 1]⟩] ∧
      decode (.call ⟨0x15#8, [.num 1]⟩) = .ok (.setColon true) := by decide +kernel

theorem witness_BlockWaitsForTheHost : State.reset.Running ∧ State.reset.pending = [] := by decide +kernel

/-- A fault of each code, and neither side of R115 empty. -/
theorem witness_FaultsAreExactlySessionMisuse :
    hostOpcode .beginFrame = some 0x01#8 ∧ hostOpcode (.blink 200 1200) = some 0x40#8 ∧
    sessionMisuse .beginFrame opened = some (.f1SessionOpen, ⟨0x01#8, none⟩) ∧
    sessionMisuse (.send 0x40#8) start = some (.f2NoSession, ⟨0x03#8, some 0x40#8⟩) ∧
    sessionMisuse .refresh opened = some (.f3FrameInSession, ⟨0x30#8, none⟩) ∧
    sessionMisuse (.blink 200 1200) { blinking with bus := opened.bus } =
      some (.f3FrameInSession, ⟨0x40#8, none⟩) ∧
    sessionMisuse (.blink 200 1199) { blinking with bus := opened.bus } = none ∧
    sessionMisuse .beginFrame start = none := by decide +kernel

theorem witness_FaultIsRecordedAndEndsTheRun :
    (issued [.call ⟨0x02#8, []⟩]).Running ∧ decode (.call ⟨0x02#8, []⟩) = .ok .endFrame ∧
    sessionMisuse .endFrame (issued [.call ⟨0x02#8, []⟩]) = some (.f2NoSession, ⟨0x02#8, none⟩) ∧
    (after [.endFrame] start).fault ≠ .none ∧ (stateOf (step (issued [.call ⟨0x05#8, []⟩]))).refused = true := by
  decide +kernel

theorem witness_OnlyNamedWritersWriteARegister : exec (.setColon true) shown =
    .next { shown with disp := { shown.disp with colon := true }, results := shown.results ++ [.none] } := rfl

theorem witness_RunsKeepTheConfigurationAndExtendTheTrace :
    ∃ t, steps 2 (issued [.call ⟨0x01#8, []⟩, .call ⟨0x14#8, []⟩]) = .next t := ⟨_, rfl⟩

theorem witness_ResetInsideARunKeepsTheMarks :
    let s : State := { opened with resetReq := true }
    s.resetReq = true ∧ s.fault = .none ∧ s.bus.sessOpen = true := by decide

theorem witness_ClearThenResetAnimReachesReset : shown.Inv ∧ shown.fault = .none :=
  ⟨witness_inv_shown, by decide +kernel⟩

theorem witness_ResetMeetsTheInvariant : ({ Config.tc0 with addrMode := .fixed, pN := 6 }).legal = true := by
  decide +kernel

theorem witness_StepKeepsTheInvariant : shown.Inv ∧ ∃ t, step shown = .next t :=
  ⟨witness_inv_shown, shown, rfl⟩

theorem witness_WireIsNeverMalformed :
    opened.bus.LinesOk ∧ opened.bus.WireOk ∧ opened.resetReq = false ∧ ∃ t, step opened = .next t :=
  ⟨witness_wireOk_opened.1, witness_wireOk_opened.2, rfl, opened, rfl⟩

theorem witness_EveryOperationKeepsTheBufferInvariants :
    shown.cfg.legal = true ∧ shown.disp.buf.wf = true ∧
    (∀ k : Fin 16, shown.disp.len ≤ k.val → shown.disp.buf.read k.val = 0x00#8) ∧
    (∀ k : Fin 16, (shown.disp.buf.read k.val).getLsbD 7 = false) ∧ shown.cfg.cacheCap = 16 := by decide +kernel

theorem witness_NoWriteOutsideTheBuffer :
    shown.cfg.legal = true ∧ shown.disp.buf.wf = true ∧ ∃ t, exec show123456 shown = .next t :=
  ⟨by decide +kernel, by decide +kernel, _, rfl⟩

/-- Both sides of every statement about the session. -/
theorem witness_sessions : start.bus.sessOpen = false ∧ opened.bus.sessOpen = true := by decide

theorem witness_FrameCarriesItsBytes :
    let s := issued ((Pseudo.frame [0x40#8, 0xC0#8]).expand.map encode)
    s.Running ∧ s.bus.sessOpen = false ∧ s.pending.length = 4 := by decide +kernel

theorem witness_SetContentStoresTruncatesBlanksAndPads : shown.cfg.legal = true ∧ shown.disp.buf.wf = true := by
  decide +kernel

/-- Two digits with a minus sign, in the last three places of the window. -/
theorem witness_FittingNumberIsRightAligned :
    let v : Int32Word := -42
    shown.cfg.legal = true ∧ shown.disp.buf.wf = true ∧ 1 ≤ 2 ∧ v.toInt.natAbs < 10 ^ 2 ∧ 10 ^ 1 ≤ v.toInt.natAbs ∧
      (0x01#8).toNat + 2 + (if v.toInt < 0 then 1 else 0) ≤ shown.cfg.pN ∧ v.toInt < 0 := by decide +kernel

theorem witness_ColonChangesOnlyBitSeven :
    let s := issued ([.setColon true, .overlay, .setColon false, .overlay].map encode)
    s.Running ∧ s.pending = [.setColon true, .overlay, .setColon false, .overlay].map encode := by decide +kernel

/-- The ends of the levels, and the numbers next to them. -/
theorem witness_levels :
    (0 : Int32Word).toInt = 0 ∧ (8 : Int32Word).toInt = 8 ∧ (-1 : Int32Word).toInt < 0 ∧
    8 < (9 : Int32Word).toInt := by decide

/-- Percents at, above and past the table's. -/
theorem witness_percents :
    (25 / 4 : Rat) ≤ shown.cfg.pct[(1 : Fin 9)] ∧ shown.cfg.pct[(1 : Fin 9)] < 313 / 50 ∧
    shown.cfg.pct[(8 : Fin 9)] < 200 := by decide +kernel

theorem witness_DisplayControlByteOfALevel :
    Config.tc0.cmdDisp = 0x80#8 ∧ Config.tc0.dispOn = 0x08#8 ∧ 1 ≤ (1#4).toNat ∧ (8#4).toNat ≤ 8 := by decide

theorem witness_RefreshSendsItsFramesInOrder : shown.bus.sessOpen = false ∧ opened.bus.sessOpen = true := by
  decide +kernel

theorem witness_AnimationStartArmsTheTimer :
    start.anim.kind ≠ .blink ∧ blinking.anim.kind ≠ .fadeOut ∧ blinking.anim.kind ≠ .fadeIn ∧
    blinking.anim.kind ≠ .scroll := by decide

/-- The last time that is early, of each kind. -/
theorem witness_EarlyTickDoesNothing :
    (blinking.anim.kind = .blink ∧ ¬ blinking.dueAt 1199) ∧ (fadingOut.anim.kind = .fadeOut ∧ ¬ fadingOut.dueAt 99) ∧
    (fadingIn.anim.kind = .fadeIn ∧ ¬ fadingIn.dueAt 0x0F) ∧
    (scrolling.anim.kind = .scroll ∧ ¬ scrolling.dueAt 1249) := by decide +kernel

/-- The first time that is due, of each kind, with no session open. -/
theorem witness_dueTicks :
    (blinking.dueAt 1200 ∧ blinking.bus.sessOpen = false) ∧ (fadingOut.dueAt 100 ∧ fadingOut.bus.sessOpen = false) ∧
    (fadingIn.dueAt 0x10 ∧ fadingIn.bus.sessOpen = false) ∧
    (scrolling.dueAt 1250 ∧ scrolling.bus.sessOpen = false) := by decide +kernel

theorem witness_TwoBlinkTicksRestoreTheLevel :
    let s : State := { blinking with pending := [encode (.blink 200 1200), encode (.blink 200 1400)] }
    s.Running ∧ s.anim.kind = .blink ∧ s.bus.sessOpen = false ∧ s.lvl ≠ 0#4 ∧
      dueTimes s.anim.interval s.anim.last [1200, 1400] := by
  simp only [dueTimes]
  decide +kernel

theorem witness_FadeOutReachesTheFloor :
    let ticks : List (Millis × Millis) := [(100, 100), (100, 200)]
    let s : State := { fadingOut with pending := ticks.map (fun p => encode (.fadeOut p.1 p.2)) }
    s.Running ∧ s.anim.kind = .fadeOut ∧ s.bus.sessOpen = false ∧ 2 ≤ s.lvl.toNat ∧
      ticks.length + 1 = s.lvl.toNat ∧ dueTimes s.anim.interval s.anim.last (ticks.map Prod.snd) := by
  simp only [List.map, dueTimes]
  decide +kernel

theorem witness_FadeInReachesTheTop :
    let ticks : List (Millis × Millis) := [(32, 16), (32, 48)]
    let s : State := { fadingIn with pending := ticks.map (fun p => encode (.fadeIn p.1 p.2)) }
    s.Running ∧ s.anim.kind = .fadeIn ∧ s.bus.sessOpen = false ∧ s.lvl.toNat ≤ 7 ∧
      ticks.length + s.lvl.toNat = 8 ∧ dueTimes s.anim.interval s.anim.last (ticks.map Prod.snd) := by
  simp only [List.map, dueTimes]
  decide +kernel

theorem witness_ScrollEndsAfterContentLengthPlusOneTicks :
    let ticks : List (Millis × Millis) := [(250, 1250), (250, 1500), (250, 1750), (250, 2000), (250, 2250)]
    let s : State := { scrolling with pending := ticks.map (fun p => encode (.scroll p.1 p.2)) }
    s.Running ∧ s.anim.kind = .scroll ∧ s.bus.sessOpen = false ∧ s.disp.win = 0 ∧
      ticks.length = s.disp.len + 1 ∧ dueTimes s.anim.interval s.anim.last (ticks.map Prod.snd) := by
  simp only [List.map, dueTimes]
  decide +kernel

end Sys2Proof.Tests
end

section
/-! The two invariants of the display buffer (R24), read cell by cell, and what an instruction can do with the buffer. -/

namespace Sys2Proof.Machine

/-! ### What any instruction does with the buffer -/

/-- R101: an animation operation whose step keeps the configuration, the buffer and the content length keeps them. -/
theorem State.animate_buffer {s t next : State} {k : AnimKind} {opcode : Byte} {d now : Millis}
    (h : s.animate k opcode d now next = .next t)
    (hn : next.cfg = s.cfg ∧ next.disp.buf = s.disp.buf ∧ next.disp.len = s.disp.len) :
    t.cfg = s.cfg ∧ t.disp.buf = s.disp.buf ∧ t.disp.len = s.disp.len := by
  rcases State.animate_cases s k opcode d now next with ⟨-, h'⟩ | ⟨-, -, h'⟩ | ⟨-, -, -, h'⟩ | ⟨-, -, -, h'⟩ <;>
    rw [h'] at h <;> cases h
  case inr.inr.inr => exact hn
  all_goals exact ⟨rfl, rfl, rfl⟩

/-- R14, R22, R23: an instruction keeps the configuration, and it leaves the buffer and the content length as they are,
stores content (R84, R86), or clears (R89). -/
theorem exec_buffer {i : Instr} {s t : State} (h : exec i s = .next t) :
    t.cfg = s.cfg ∧
      ((t.disp.buf = s.disp.buf ∧ t.disp.len = s.disp.len) ∨
        (∃ syms off ovf pad, t.disp = s.disp.setContent s.cfg syms off ovf pad) ∨
        t.disp = s.disp.clear s.cfg) := by
  cases i
  case setContent syms off ovf pad => cases h; exact ⟨rfl, .inr (.inl ⟨syms, off.toNat, ovf, pad, rfl⟩)⟩
  case setNumber v off ovf pad =>
    cases h
    exact ⟨rfl, .inr (.inl ⟨numberSyms s.cfg v.toInt off.toNat pad, off.toNat, ovf, false, rfl⟩)⟩
  case clear => cases h; exact ⟨rfl, .inr (.inr rfl)⟩
  case blink | fadeOut | fadeIn | scroll =>
    obtain ⟨hcfg, hbuf⟩ := State.animate_buffer h ⟨rfl, rfl, rfl⟩
    exact ⟨hcfg, .inl hbuf⟩
  case beginFrame | endFrame | refresh =>
    simp only [exec, execBegin, execEnd, execRefresh] at h
    split at h <;> cases h <;> exact ⟨rfl, .inl ⟨rfl, rfl⟩⟩
  case send | wireDataAuto | wireDataFixed | wireAddr | wireDispOff | wireDispOn | wirePayload =>
    change s.sendByte _ = _ at h
    simp only [State.sendByte] at h
    split at h <;> cases h <;> exact ⟨rfl, .inl ⟨rfl, rfl⟩⟩
  all_goals cases h; exact ⟨rfl, .inl ⟨rfl, rfl⟩⟩

/-! ### The invariants as reads -/

/-- R24, as reads: the cells from the content length to the capacity are blank, and no cell has bit 7 set. -/
structure Display.CellsOk (c : Config) (d : Display) : Prop where
  blankPast : ∀ k, d.len ≤ k → k < c.cacheCap → d.buf.read k = blank
  noOverlay : ∀ k, k < c.cacheCap → (d.buf.read k).getLsbD 7 = false

theorem blank_bit7 : blank.getLsbD 7 = false := by decide

theorem Display.reset_cellsOk (c : Config) : (State.resetWith c).disp.CellsOk c :=
  ⟨fun _ _ _ => rfl, fun _ _ => blank_bit7⟩

/-- R24, R84: a cell past the new content length was blanked, and every code stored has bit 7 clear. -/
theorem Display.setContent_cellsOk {c : Config} (hc : c.legal = true) (syms : List Byte) (off : Nat) (ovf pad : Bool)
    {d : Display} (hwf : d.buf.wf = true) (h : d.CellsOk c) : (d.setContent c syms off ovf pad).CellsOk c := by
  constructor <;> intro i
  · intro hlen hi
    rw [Display.setContent_len] at hlen
    rw [Display.setContent_read hc syms off ovf pad hwf i]
    have hpad : ¬ (pad = true ∧ i < c.pN) := fun hp => by
      rw [if_pos ⟨hp.1, by split at hlen <;> omega⟩] at hlen
      omega
    rw [if_neg (by split at hlen <;> omega), if_neg (by split at hlen <;> omega), if_neg hpad, if_pos hi]
  · intro hi
    rw [Display.setContent_read hc syms off ovf pad hwf i]
    split
    · exact h.noOverlay i hi
    split
    · exact Config.enc_bit7 hc _
    split
    · rfl
    · exact blank_bit7

/-- R24, R89: CLEAR blanks every cell. -/
theorem Display.clear_cellsOk (c : Config) {d : Display} (hwf : d.buf.wf = true) : (d.clear c).CellsOk c := by
  have hblank : ∀ k, k < c.cacheCap → (d.clear c).buf.read k = blank := fun k hk =>
    (Display.clear_read c hwf k).trans (if_pos hk)
  exact ⟨fun k _ hk => hblank k hk, fun k hk => hblank k hk ▸ blank_bit7⟩

/-- R24: every instruction keeps both invariants, under the configuration that it keeps too. -/
theorem exec_cellsOk {i : Instr} {s t : State} (hc : s.cfg.legal = true) (hwf : s.disp.buf.wf = true)
    (hs : s.disp.CellsOk s.cfg) (h : exec i s = .next t) : t.disp.CellsOk t.cfg := by
  obtain ⟨hcfg, ⟨hbuf, hlen⟩ | ⟨syms, off, ovf, pad, hset⟩ | hclear⟩ := exec_buffer h <;> rw [hcfg]
  · obtain ⟨hpast, hbit⟩ := hs
    constructor
    · rwa [hbuf, hlen]
    · rwa [hbuf]
  · rw [hset]
    exact Display.setContent_cellsOk hc syms off ovf pad hwf hs
  · rw [hclear]
    exact Display.clear_cellsOk s.cfg hwf

/-- Settles O19: an instruction leaves the buffer, stores content or clears, and each keeps both invariants. -/
theorem everyOperationKeepsTheBufferInvariants : Obligations.EveryOperationKeepsTheBufferInvariants := by
  refine ⟨fun c => ?_, fun i s t hc hwf hpast hbit h => ?_⟩
  · obtain ⟨hpast, hbit⟩ := Display.reset_cellsOk c
    exact ⟨hpast, hbit⟩
  · obtain ⟨hpast', hbit'⟩ := exec_cellsOk hc hwf ⟨hpast, hbit⟩ h
    exact ⟨hpast', hbit'⟩

end Sys2Proof.Machine
end

section
/-! Two encodings of 30_encoding.md: the fixed symbols' codes (R57) and the display-control byte of a level (R62). -/

namespace Sys2Proof.Machine

/-- Settles O29: a legal table agrees with the fixed entries (R57), and each pair listed is one of them. -/
theorem fixedSymbolsHaveTheirCodes : Obligations.FixedSymbolsHaveTheirCodes := by
  refine fun c hc => ⟨fun p hp => Config.enc_fixed hc ?_, (Config.enc_fixed hc rfl).symm⟩
  fin_cases hp <;> rfl

/-- R62: level 0 is display-off. -/
@[simp] theorem dispCtrl_zero (c : Config) : dispCtrl c 0#4 = c.cmdDisp := by
  rw [dispCtrl_eq, if_pos rfl]

/-- R62: a level from 1 on has the on bit and its pulse width. -/
theorem dispCtrl_of_pos (c : Config) {l : Level} (hl : 1 ≤ l.toNat) :
    dispCtrl c l = c.cmdDisp ||| c.dispOn ||| BitVec.ofNat 8 (l.toNat - 1) := by
  have hne : l ≠ 0#4 := by
    rintro rfl
    exact absurd hl (by decide)
  rw [dispCtrl_eq, if_neg hne]

/-- R62: with the default class bits, a pulse width fills the three low bits, which both leave clear. -/
theorem defaultDispOn_or_width_toNat :
    ∀ k < 8, (0x80#8 ||| 0x08#8 ||| BitVec.ofNat 8 k).toNat = 0x88 + k := by decide

/-- Settles O46: the two cases of the byte, and its value where the parameters are the default ones. -/
theorem displayControlByteOfALevel : Obligations.DisplayControlByteOfALevel := by
  refine fun c l => ⟨?off, fun hpos _ => dispCtrl_of_pos c hpos, fun hcmd hon => ⟨?defaultOff, ?defaultOn⟩⟩
  case off =>
    rintro rfl
    exact dispCtrl_zero c
  case defaultOff =>
    rintro rfl
    exact (dispCtrl_zero c).trans hcmd
  case defaultOn =>
    intro hpos hle
    rw [dispCtrl_of_pos c hpos, hcmd, hon]
    exact defaultDispOn_or_width_toNat (l.toNat - 1) (by omega)

end Sys2Proof.Machine
end

section
/-! BEGIN, END and SEND (40_transport.md): what each answers with a session open and with none, and the events it adds. -/

namespace Sys2Proof.Machine

/-! ### What each operation answers -/

/-- R74: BEGIN with no session open. -/
theorem exec_beginFrame_closed {s : State} (h : s.bus.sessOpen = false) :
    exec .beginFrame s = .next { s with bus := s.bus.startFrame, results := s.results ++ [.none] } := by
  simp [exec, execBegin, State.finish, h]

/-- R74, R115: BEGIN in an open session. -/
theorem exec_beginFrame_open {s : State} (h : s.bus.sessOpen = true) :
    exec .beginFrame s = .next { s with fault := .f1SessionOpen, faultRecord := some ⟨0x01#8, none⟩ } := by
  simp [exec, execBegin, State.raiseFault, h]

/-- R75: END in an open session. -/
theorem exec_endFrame_open {s : State} (h : s.bus.sessOpen = true) :
    exec .endFrame s = .next { s with bus := s.bus.stopFrame, results := s.results ++ [.none] } := by
  simp [exec, execEnd, State.finish, h]

/-- R75, R115: END with no session open. -/
theorem exec_endFrame_closed {s : State} (h : s.bus.sessOpen = false) :
    exec .endFrame s = .next { s with fault := .f2NoSession, faultRecord := some ⟨0x02#8, none⟩ } := by
  simp [exec, execEnd, State.raiseFault, h]

/-- R76: SEND in an open session. -/
theorem exec_send_open {s : State} (h : s.bus.sessOpen = true) (b : Byte) :
    exec (.send b) s =
      .next { s with bus := (s.bus.shiftByte b).2, results := s.results ++ [.ack s.bus.nextAck] } :=
  State.sendByte_open h b

/-- R76, R115: SEND with no session open. -/
theorem exec_send_closed {s : State} (h : s.bus.sessOpen = false) (b : Byte) :
    exec (.send b) s = .next { s with fault := .f2NoSession, faultRecord := some ⟨0x03#8, some b⟩ } :=
  State.sendByte_closed h b

/-! ### The events of a byte and their number (R76, R81) -/

/-- R77: the draw is the level the environment fixes, where it fixes one. -/
theorem Bus.nextAck_of_acks {b : Bus} {a : Bool} {rest : List Bool} (h : b.acks = a :: rest) : b.nextAck = a := by
  simp [Bus.nextAck, h]

/-- R76: the loop over the bits, 0 first, then the acknowledgement cell. -/
theorem byteEvents_eq_cells (b : Byte) (a : Bool) :
    byteEvents b a = (List.range 8).flatMap (fun i => cellEvents (b.getLsbD i)) ++ ackEvents a := by
  simp [byteEvents, List.range_succ]

@[simp] theorem cellEvents_length (v : Bool) : (cellEvents v).length = 5 := rfl

@[simp] theorem ackEvents_length (a : Bool) : (ackEvents a).length = if a then 7 else 8 := by
  cases a <;> rfl

/-- R81: eight cells of 5 events, then an acknowledgement cell of 7 or 8. -/
theorem byteEvents_length (b : Byte) (a : Bool) : (byteEvents b a).length = if a then 47 else 48 := by
  have hcells : ((List.range 8).flatMap fun i => cellEvents (b.getLsbD i)).length = 40 := by
    simp [List.length_flatMap]
  rw [byteEvents_eq_cells, List.length_append, hcells, ackEvents_length]
  cases a <;> rfl

/-- R76: the trace after a byte, cell by cell. -/
theorem Bus.shiftByte_trace_cells (x : Byte) (b : Bus) :
    (b.shiftByte x).2.trace =
      b.trace ++ (List.range 8).flatMap (fun i => cellEvents (x.getLsbD i)) ++ ackEvents b.nextAck := by
  rw [Bus.shiftByte_trace, byteEvents_eq_cells, List.append_assoc]

/-! ### The obligations -/

/-- Settles O23: SEND is `Bus.shiftByte` in an open session, whose events, levels and draw are known, and a fault else. -/
theorem sendShiftsLsbFirstAndReadsTheAck : Obligations.SendShiftsLsbFirstAndReadsTheAck := by
  refine fun b s => ⟨?decodes, fun hopen => ?completes, fun hclosed => exec_send_closed hclosed b⟩
  case decodes =>
    have hread : (Operand.num b.toNat).asU8 = some b := Operand.asU8_ofUnsigned b
    exact decodeCall_ok (types := [.u8]) rfl rfl (by rw [hostInstr_send, hread]; rfl)
  case completes =>
    refine ⟨_, s.bus.nextAck, exec_send_open hopen b, fun x rest => Bus.nextAck_of_acks, ?trace, ?frame⟩
    case trace => simp [Bus.shiftByte_trace_cells, ackEvents]
    case frame => simp [Bus.shiftByte_snd]

/-- Settles O25: the events each operation adds are a list of known length. -/
theorem transportEventCounts : Obligations.TransportEventCounts := by
  refine ⟨cellEvents_length, ackEvents_length false, ackEvents_length true, fun s b =>
    ⟨fun hclosed => ⟨_, exec_beginFrame_closed hclosed, ?begin⟩, fun hopen => ⟨_, exec_endFrame_open hopen, ?stop⟩,
      fun hopen => ⟨_, s.bus.nextAck, exec_send_open hopen b, rfl, Bus.shiftByte_trace_cells b s.bus, ?send⟩⟩⟩
  case begin => exact (congrArg List.length s.bus.startFrame_trace).trans List.length_append
  case stop => exact (congrArg List.length s.bus.stopFrame_trace).trans List.length_append
  case send => rw [Bus.shiftByte_trace, List.length_append, byteEvents_length]

/-- Settles O21: BEGIN is `Bus.startFrame` with no session open, and a fault else. -/
theorem beginEmitsTheStartCondition : Obligations.BeginEmitsTheStartCondition := by
  refine fun s => ⟨decodeCall_ok (types := []) rfl rfl hostInstr_beginFrame, fun hclosed => ?_, exec_beginFrame_open⟩
  exact ⟨_, exec_beginFrame_closed hclosed, Bus.startFrame_trace s.bus, by rw [Bus.startFrame_eq]⟩

/-- Settles O22: END is `Bus.stopFrame` in an open session, and a fault else. -/
theorem endEmitsTheStopCondition : Obligations.EndEmitsTheStopCondition := by
  refine fun s => ⟨decodeCall_ok (types := []) rfl rfl hostInstr_endFrame, fun hopen => ?_, exec_endFrame_closed⟩
  exact ⟨_, exec_endFrame_open hopen, Bus.stopFrame_trace s.bus, by rw [Bus.stopFrame_eq]⟩

end Sys2Proof.Machine
end

section
/-! The encoder and display buffer operations (41_encoder_buffer.md): the decimal rendering of a number (R85, R86), and
what each operation stores, shows and leaves unchanged (R84, R86, R88 to R91). -/

namespace Sys2Proof.Machine

/-! ### Decimal rendering (R85) -/

/-- R85: a number below ten is its one digit. -/
theorem dec_of_lt {m : Nat} (hm : m < 10) : dec m = [digitSym m] := by
  simpa [Nat.mod_eq_of_lt hm] using dec_eq m 1 le_rfl (by simpa using hm) (.inl rfl)

/-- R85: from ten on, the last digit follows the rendering of the tenth. -/
theorem dec_of_ge {m : Nat} (hm : 10 ≤ m) : dec m = dec (m / 10) ++ [digitSym (m % 10)] := by
  have htenth : m / 10 ≠ 0 := by omega
  have hlt : m / 10 < 10 ^ (Nat.log 10 (m / 10) + 1) := Nat.lt_pow_succ_log_self (by decide) _
  have hle : 10 ^ Nat.log 10 (m / 10) ≤ m / 10 := Nat.pow_log_le_self 10 htenth
  generalize Nat.log 10 (m / 10) = n at hlt hle
  have hdigits : dec m = (List.range (n + 2)).map fun i => digitSym (m / 10 ^ (n + 1 - i) % 10) :=
    dec_eq m (n + 2) (by omega) (by rw [pow_succ]; omega) (.inr (by rw [Nat.add_succ_sub_one, pow_succ]; omega))
  rw [hdigits, dec_eq (m / 10) (n + 1) (by omega) hlt (.inr hle), List.range_succ, List.map_append]
  congr 1
  · refine List.map_congr_left fun i hi => ?_
    have hi : i < n + 1 := List.mem_range.1 hi
    rw [Nat.div_div_eq_div_mul, ← pow_succ', Nat.add_sub_cancel, show n - i + 1 = n + 1 - i by omega]
  · simp

/-- R56: the symbol of a digit is its character code. -/
theorem digitSym_toNat {d : Nat} (hd : d < 10) : (digitSym d).toNat = 0x30 + d := by
  rw [digitSym, BitVec.toNat_ofNat]
  omega

/-- R56: the one digit whose symbol is 0x30 is 0. -/
theorem digitSym_ne_zeroSym {d : Nat} (hd : d < 10) (h0 : d ≠ 0) : digitSym d ≠ 0x30#8 := fun h => by
  have hcode : 0x30 + d = 0x30 + 0 := (digitSym_toNat hd).symm.trans (congrArg BitVec.toNat h)
  exact h0 (Nat.add_left_cancel hcode)

/-- R85: every symbol of a rendering is a digit. -/
theorem mem_dec {m : Nat} {x : Byte} (hx : x ∈ dec m) : 0x30 ≤ x.toNat ∧ x.toNat ≤ 0x39 := by
  induction m using Nat.strongRecOn with
  | ind m ih =>
    have hdigit : ∀ d < 10, x = digitSym d → 0x30 ≤ x.toNat ∧ x.toNat ≤ 0x39 := by
      rintro d hd rfl
      rw [digitSym_toNat hd]
      omega
    rcases lt_or_ge m 10 with hm | hm
    · rw [dec_of_lt hm, List.mem_singleton] at hx
      exact hdigit m hm hx
    · rw [dec_of_ge hm, List.mem_append, List.mem_singleton] at hx
      rcases hx with hx | hx
      · exact ih (m / 10) (by omega) hx
      · exact hdigit (m % 10) (by omega) hx

/-- R85: read most significant digit first, a rendering has the value of its number. -/
theorem dec_value (m : Nat) : (dec m).foldl (fun n x => 10 * n + (x.toNat - 0x30)) 0 = m := by
  induction m using Nat.strongRecOn with
  | ind m ih =>
    rcases lt_or_ge m 10 with hm | hm
    · simp [dec_of_lt hm, digitSym_toNat hm]
    · rw [dec_of_ge hm, List.foldl_append, ih (m / 10) (by omega), List.foldl_cons, List.foldl_nil,
        digitSym_toNat (by omega)]
      omega

/-- R85: the rendering of a number other than 0 has no leading zero. -/
theorem dec_head_ne_zeroSym {m : Nat} (h0 : m ≠ 0) : ∃ x rest, dec m = x :: rest ∧ x ≠ 0x30#8 := by
  induction m using Nat.strongRecOn with
  | ind m ih =>
    rcases lt_or_ge m 10 with hm | hm
    · exact ⟨_, _, dec_of_lt hm, digitSym_ne_zeroSym hm h0⟩
    · obtain ⟨x, rest, htenth, hx⟩ := ih (m / 10) (by omega) (by omega)
      exact ⟨x, rest ++ [digitSym (m % 10)], by rw [dec_of_ge hm, htenth, List.cons_append], hx⟩

/-- Settles O32: each fact by strong induction, from a number's tenth to the number. -/
theorem decIsTheDecimalRendering : Obligations.DecIsTheDecimalRendering :=
  ⟨dec_of_lt (by decide), fun m => ⟨fun _ => mem_dec, dec_value m, dec_head_ne_zeroSym⟩⟩

/-! ### Storing content (R84, R86) -/

/-- R84: SETCONTENT changes no part of the display but the buffer and the content length. -/
theorem Display.setContent_frame (c : Config) (syms : List Byte) (off : Nat) (ovf pad : Bool) (d : Display) :
    d.setContent c syms off ovf pad =
      { d with buf := (d.setContent c syms off ovf pad).buf, len := (d.setContent c syms off ovf pad).len } := by
  simp only [Display.setContent]
  split <;> rfl

/-- R84: SETCONTENT completes. -/
theorem exec_setContent (syms : List Byte) (off : Byte) (ovf pad : Bool) (s : State) :
    exec (.setContent syms off ovf pad) s =
      .next
        { s with
          disp := s.disp.setContent s.cfg syms off.toNat ovf pad
          results := s.results ++ [.none] } := rfl

/-- R86: SETNUMBER is SETCONTENT of the aligned symbols, without its padding. -/
theorem exec_setNumber (v : Int32Word) (off : Byte) (ovf pad : Bool) (s : State) :
    exec (.setNumber v off ovf pad) s =
      exec (.setContent (numberSyms s.cfg v.toInt off.toNat pad) off ovf false) s := rfl

/-- R86: the fill takes the room that the rendering leaves, none where it does not fit. -/
theorem numberSyms_eq (c : Config) (v : Int) (off : Nat) (pad : Bool) :
    numberSyms c v off pad =
      List.replicate (c.pN - off - (renderInt v).length) (if pad = true ∧ 0 ≤ v then 0x30#8 else 0x20#8) ++
        renderInt v := by
  simp only [numberSyms, Bool.and_eq_true, decide_eq_true_eq]
  split
  · rw [show ((c.pN : Int) - off - (renderInt v).length).toNat = c.pN - off - (renderInt v).length by omega]
  · rw [show c.pN - off - (renderInt v).length = 0 by omega, List.replicate_zero, List.nil_append]

/-- Settles O31: what SETCONTENT does to the display, its one change. -/
theorem setContentStoresTruncatesBlanksAndPads : Obligations.SetContentStoresTruncatesBlanksAndPads := by
  refine fun s syms off ovf pad hc hwf => ⟨rfl, _, exec_setContent syms off ovf pad s, ?frame,
    Display.setContent_len s.cfg syms off.toNat ovf pad s.disp,
    Display.setContent_read hc syms off.toNat ovf pad hwf⟩
  case frame => rw [← Display.setContent_frame]

/-- Settles O33: SETNUMBER is a SETCONTENT, of the rendering with its fill in front. -/
theorem setNumberStoresTheAlignedRendering : Obligations.SetNumberStoresTheAlignedRendering := by
  intro s v off ovf pad r fill
  have hsyms : numberSyms s.cfg v.toInt off.toNat pad =
      List.replicate (s.cfg.pN - off.toNat - r.length) fill ++ r := numberSyms_eq s.cfg v.toInt off.toNat pad
  rw [exec_setNumber, hsyms]
  refine ⟨rfl, _, exec_setContent _ off ovf false s, exec_setContent _ off ovf false s, ?frame⟩
  case frame => rw [← Display.setContent_frame]

/-! ### The transmitted view and the overlay (R87 to R91) -/

/-- R88: OVERLAY completes with the transmitted view. -/
theorem exec_overlay (s : State) :
    exec .overlay s = .next { s with results := s.results ++ [.view (s.disp.txView s.cfg)] } := rfl

/-- R40, R87: the code at a position: its window's cell, with the overlay bit. -/
theorem Display.txCode_eq (c : Config) (d : Display) (p : Nat) :
    d.txCode c p =
      (if d.win + p < c.cacheCap then d.buf.read (d.win + p) else 0x00#8) |||
        (if d.colon = true ∨ d.dp.getLsbD p = true then 0x80#8 else 0x00#8) := by
  simp only [Display.txCode, Display.winCode, Display.overlayBit, blank, Bool.or_eq_true]

/-- Settles O35: the result is the transmitted view, read position by position. -/
theorem overlayReturnsTheTransmittedView : Obligations.OverlayReturnsTheTransmittedView := by
  refine fun s => ⟨rfl, _, exec_overlay s, Display.txView_length s.cfg s.disp, fun p hp => ?_⟩
  rw [Display.txView_getElem? s.cfg s.disp hp, Display.txCode_eq]

/-- R89: CLEAR completes. -/
theorem exec_clear (s : State) :
    exec .clear s = .next { s with disp := s.disp.clear s.cfg, results := s.results ++ [.none] } := rfl

/-- Settles O37: CLEAR's display, whose cells are known. -/
theorem clearBlanksBufferAndOverlay : Obligations.ClearBlanksBufferAndOverlay :=
  fun s hwf => ⟨rfl, _, exec_clear s, rfl, Display.clear_read s.cfg hwf⟩

/-- R90: SETCOLON completes. -/
theorem exec_setColon (c : Bool) (s : State) :
    exec (.setColon c) s =
      .next { s with disp := { s.disp with colon := c }, results := s.results ++ [.none] } := rfl

/-- Settles O38: SETCOLON's next state is the statement's. -/
theorem setColonWritesTheFlag : Obligations.SetColonWritesTheFlag :=
  fun s c => ⟨rfl, exec_setColon c s⟩

/-- R91: SETDP completes with the masked operand. -/
theorem exec_setDp (m : Byte) (s : State) :
    exec (.setDp m) s =
      .next { s with disp := { s.disp with dp := dpMask s.cfg.pN m }, results := s.results ++ [.none] } := rfl

/-- Settles O39: the mask keeps the bits below P_N, at most 6 in a legal configuration. -/
theorem setDpDropsBitsPastTheWindow : Obligations.SetDpDropsBitsPastTheWindow :=
  fun s m hc => ⟨rfl, _, exec_setDp m s, rfl, dpMask_getLsbD (Config.legal_pN hc).2 m⟩

end Sys2Proof.Machine
end

section
/-! Brightness (42_brightness.md): what the conversions between integers, percents and levels return, and what the two
operations that set the level write. -/

namespace Sys2Proof.Machine

/-! ### What each operation answers (R94 to R98) -/

/-- R94: FROMLEVEL completes with `FromLevel(n)`. -/
theorem exec_fromLevel (n : Int32Word) (s : State) :
    exec (.fromLevel n) s =
      .next { s with results := s.results ++ [.level (fromLevelValue s.cfg n.toInt)] } := rfl

/-- R95: TOPERCENT completes with the table's entry. -/
theorem exec_toPercent (l : Fin 9) (s : State) :
    exec (.toPercent l) s = .next { s with results := s.results ++ [.percent s.cfg.pct[l]] } := rfl

/-- R96: FROMPERCENT completes with the level that the search finds. -/
theorem exec_fromPercent (p : Rat) (s : State) :
    exec (.fromPercent p) s =
      .next { s with results := s.results ++ [.level (BitVec.ofNat 4 (fromPercentIndex s.cfg p).val)] } := rfl

/-- R97: SETLEVEL writes `FromLevel(n)`. -/
theorem exec_setLevel (n : Int32Word) (s : State) :
    exec (.setLevel n) s =
      .next { s with lvl := fromLevelValue s.cfg n.toInt, results := s.results ++ [.none] } := rfl

/-- R98: SETPERCENT writes the level that the search of R96 finds. -/
theorem exec_setPercent (p : Rat) (s : State) :
    exec (.setPercent p) s =
      .next
        { s with
          lvl := BitVec.ofNat 4 (fromPercentIndex s.cfg p).val
          results := s.results ++ [.none] } := rfl

/-! ### The percents of a legal configuration (R93) -/

/-- R93: a percent of a legal table is within 0..100. -/
theorem pct_bounds {c : Config} (hc : c.legal = true) (l : Fin 9) : 0 ≤ c.pct[l] ∧ c.pct[l] ≤ 100 := by
  obtain ⟨-, -, -, hpct, -⟩ := (Config.legal_iff c).1 hc
  obtain ⟨-, -, hbounds, -⟩ := (pctLegal_iff c.pct).1 hpct
  exact hbounds l

/-! ### The obligations -/

/-- Settles O41: the result is the table's entry, and a legal table is within 0..100 and rises. -/
theorem toPercentRisesWithTheLevel : Obligations.ToPercentRisesWithTheLevel := by
  intro s l hc
  obtain ⟨hnonneg, hle⟩ := pct_bounds hc l
  exact ⟨rfl, exec_toPercent l s, hnonneg, hle, fun _ hlt => pct_strictMono hc hlt⟩

/-- Settles O42: the result is the level of the search, which is the least one with percent enough. -/
theorem fromPercentReturnsTheLeastLevel : Obligations.FromPercentReturnsTheLeastLevel :=
  fun s p => ⟨rfl, fromPercentIndex s.cfg p, exec_fromPercent p s, fromPercentIndex_spec s.cfg p⟩

/-- Settles O40: the result is `FromLevel(n)`, whose value is known on both sides of the range. -/
theorem fromLevelReturnsLevelOrDefault : Obligations.FromLevelReturnsLevelOrDefault :=
  fun s n => ⟨rfl, _, exec_fromLevel n s, fromLevelValue_inside s.cfg, fromLevelValue_outside s.cfg,
    fun hc => fromLevelValue_le hc n.toInt⟩

/-- Settles O44: the level written is `FromLevel(n)`, and it is the one change. -/
theorem setLevelWritesLevelOrDefault : Obligations.SetLevelWritesLevelOrDefault :=
  fun s n => ⟨rfl, _, exec_setLevel n s, rfl, fromLevelValue_inside s.cfg, fromLevelValue_outside s.cfg⟩

/-- Settles O45: the level written is the one of the search of R96, and it is the one change. -/
theorem setPercentWritesTheLeastLevel : Obligations.SetPercentWritesTheLeastLevel :=
  fun s p => ⟨rfl, fromPercentIndex s.cfg p, exec_setPercent p s, fromPercentIndex_spec s.cfg p⟩

end Sys2Proof.Machine
end

section
/-! The animator (43_animator.md): what a due tick does, kind by kind, and how the kind changes (R101 to R112). -/

namespace Sys2Proof.Machine

/-! ### What an animation operation and RESETANIM answer (R101, R111) -/

/-- R101: a tick is early exactly when it is not due. -/
theorem State.early_iff (s : State) (now : Millis) : s.anim.due now = false ↔ ¬ s.dueAt now := by
  rw [← State.due_iff, Bool.not_eq_true]

/-- R101, R115: a due tick in an open session. -/
theorem State.animate_fault {s : State} {k : AnimKind} (h : s.anim.kind = k) {now : Millis}
    (hd : s.anim.due now = true) (ho : s.bus.sessOpen = true) (opcode : Byte) (d : Millis) (next : State) :
    s.animate k opcode d now next = s.raiseFault .f3FrameInSession opcode none := by
  simp [State.animate, h, hd, ho]

/-- R99: a refresh samples an acknowledgement at least once. -/
theorem State.samples_lt_refreshBody (s : State) : s.bus.samples < s.refreshBody.2.samples := by
  simp only [State.refreshBody_eq]
  exact Nat.lt_add_of_pos_right s.refreshBytes_pos

/-- R101: a due tick with no session open is REFRESH of the state that the step leaves, which changes the lines and the
results alone. -/
theorem State.animate_refreshes {s next : State} {k : AnimKind} {now : Millis} (hk : s.anim.kind = k)
    (hd : s.dueAt now) (ho : s.bus.sessOpen = false) (hbus : next.bus = s.bus) (opcode : Byte) (d : Millis) :
    ∃ t, s.animate k opcode d now next = .next t ∧ exec .refresh next = .next t ∧
      t = { next with bus := t.bus, results := t.results } := by
  rw [State.animate_due hk ((State.due_iff s now).2 hd) ho, ← State.finishStep_eq (hbus ▸ ho)]
  exact ⟨_, rfl, rfl, rfl⟩

/-- R111: RESETANIM clears the animator and the window. -/
theorem exec_resetAnim (s : State) :
    exec .resetAnim s =
      .next { s with
        anim := { kind := .idle, interval := 0#32, last := 0#32, saved := 0#4 }
        disp := { s.disp with win := 0 }
        results := s.results ++ [.none] } := rfl

/-! ### The state that a due tick refreshes (R103 to R105) -/

/-- R103: the trigger and the blink step. -/
theorem State.blinkTick_eq (s : State) (now : Millis) :
    (s.trigger now).stepBlink =
      if s.lvl = 0#4 then { s with lvl := s.anim.saved, anim := { s.anim with last := now } }
      else { s with lvl := 0#4, anim := { s.anim with last := now, saved := s.lvl } } := by
  split
  · exact State.stepBlink_off (s := s.trigger now) ‹_›
  · exact State.stepBlink_lit (s := s.trigger now) ‹_›

/-- R104: the trigger and the fade-out step. -/
theorem State.fadeOutTick_eq {s : State} (hk : s.anim.kind = .fadeOut) (now : Millis) :
    (s.trigger now).stepFadeOut =
      { s with
        lvl := fadeOutLevel s.lvl
        anim :=
          { s.anim with
            kind := if (fadeOutLevel s.lvl).toNat ≤ 1 then .idle else .fadeOut
            last := now } } := by
  rw [← hk]
  rfl

/-- R105: the trigger and the fade-in step. -/
theorem State.fadeInTick_eq {s : State} (hk : s.anim.kind = .fadeIn) (now : Millis) :
    (s.trigger now).stepFadeIn =
      { s with
        lvl := fadeInLevel s.lvl
        anim :=
          { s.anim with
            kind := if (fadeInLevel s.lvl).toNat = 8 then .idle else .fadeIn
            last := now } } := by
  simp only [← eq_topLevel_iff, ← hk]
  rfl

/-! ### The kind (R112) -/

/-- R112: the rows of an animation operation of kind k from s to t, where its step is from s to `next`. -/
structure State.AnimateRows (s t next : State) (k : AnimKind) (d now : Millis) : Prop where
  start : s.anim.kind ≠ k → t.anim.kind = k ∧ t.anim.interval = d ∧ t.anim.last = now ∧ t.bus = s.bus
  wait : s.anim.kind = k → ¬ s.dueAt now → t.anim = s.anim ∧ t.bus = s.bus
  fault : s.anim.kind = k → s.dueAt now → s.bus.sessOpen = true →
    t.fault = .f3FrameInSession ∧ t.anim = s.anim ∧ t.bus = s.bus
  step : s.anim.kind = k ∧ s.dueAt now ∧ s.bus.sessOpen = false →
    t.anim = next.anim ∧ t.lvl = next.lvl ∧ t.disp = next.disp ∧ s.bus.samples < t.bus.samples

/-- R101, R112: an animation operation whose step leaves the lines to its refresh has these rows. -/
theorem State.animate_rows {s t next : State} {k : AnimKind} {opcode : Byte} {d now : Millis}
    (h : s.animate k opcode d now next = .next t) (hbus : next.bus = s.bus) : s.AnimateRows t next k d now where
  start hk := by
    rw [State.animate_start hk] at h
    cases h
    exact ⟨rfl, rfl, rfl, rfl⟩
  wait hk hd := by
    rw [State.animate_early hk now ((State.early_iff s now).2 hd)] at h
    cases h
    exact ⟨rfl, rfl⟩
  fault hk hd ho := by
    rw [State.animate_fault hk ((State.due_iff s now).2 hd) ho] at h
    cases h
    exact ⟨rfl, rfl, rfl⟩
  step := by
    rintro ⟨hk, hd, ho⟩
    rw [State.animate_due hk ((State.due_iff s now).2 hd) ho] at h
    cases h
    exact ⟨rfl, rfl, rfl, hbus ▸ next.samples_lt_refreshBody⟩

/-- R112: the operations that may write the animator are the four animations and RESETANIM. -/
def writesAnimator : Instr → Bool
  | .blink _ _ | .fadeOut _ _ | .fadeIn _ _ | .scroll _ _ | .resetAnim => true
  | _ => false

/-- R76: putting a byte on the wire, or failing to, leaves the animator as it is. -/
theorem State.sendByte_anim {s t : State} {b : Byte} (h : s.sendByte b = .next t) : t.anim = s.anim := by
  unfold State.sendByte at h
  split at h <;> cases h <;> rfl

/-- R112: every other operation leaves the animator as it is. -/
theorem exec_anim {i : Instr} {s t : State} (hi : writesAnimator i = false) (h : exec i s = .next t) :
    t.anim = s.anim := by
  cases i
  case blink | fadeOut | fadeIn | scroll | resetAnim => cases hi
  case send | wireDataAuto | wireDataFixed | wireAddr | wireDispOff | wireDispOn | wirePayload =>
    exact State.sendByte_anim h
  case beginFrame | endFrame | refresh =>
    simp only [exec, execBegin, execEnd, execRefresh] at h
    split at h <;> cases h <;> rfl
  all_goals cases h; rfl

/-! ### The obligations -/

/-- Settles O51: the trigger and the blink step leave the state described, and the tick ends with its REFRESH. -/
theorem blinkTickToggles : Obligations.BlinkTickToggles := by
  intro s d now hk hd ho u
  rw [show u = (s.trigger now).stepBlink from (State.blinkTick_eq s now).symm]
  exact State.animate_refreshes (next := (s.trigger now).stepBlink) hk hd ho rfl 0x40#8 d

/-- Settles O52: the level is that of the fade-out step, and the tick ends with REFRESH of the state the step left. -/
theorem fadeOutTickLowersTheLevel : Obligations.FadeOutTickLowersTheLevel := by
  intro s d now hk hd ho
  obtain ⟨t, hexec, hrefresh, ht⟩ :=
    State.animate_refreshes (next := (s.trigger now).stepFadeOut) hk hd ho rfl 0x41#8 d
  rw [State.fadeOutTick_eq hk] at hrefresh ht
  exact ⟨t, fadeOutLevel s.lvl, _, hexec, fadeOutLevel_toNat s.lvl, rfl, hrefresh, ht⟩

/-- Settles O53: the level is that of the fade-in step, and the tick ends with REFRESH of the state the step left. -/
theorem fadeInTickRaisesTheLevel : Obligations.FadeInTickRaisesTheLevel := by
  intro s d now hk hd ho
  obtain ⟨t, hexec, hrefresh, ht⟩ :=
    State.animate_refreshes (next := (s.trigger now).stepFadeIn) hk hd ho rfl 0x42#8 d
  rw [State.fadeInTick_eq hk] at hrefresh ht
  exact ⟨t, fadeInLevel s.lvl, _, hexec, fadeInLevel_toNat s.lvl, rfl, hrefresh, ht⟩

/-- Settles O55: RESETANIM's next state, and its opcode. -/
theorem resetAnimClearsTheAnimator : Obligations.ResetAnimClearsTheAnimator := fun s => ⟨rfl, exec_resetAnim s⟩

/-- Settles O56: each animation has the rows of R112 with its own end condition, RESETANIM returns to IDLE, and no other
operation writes the animator. -/
theorem animationKindTransitions : Obligations.AnimationKindTransitions := by
  intro i s t h starts waits faults steps
  cases i
  case blink d now =>
    obtain ⟨hstart, hwait, hfault, hstep⟩ := State.animate_rows h rfl
    refine ⟨hstart, hwait, hfault, fun hs => ?_⟩
    obtain ⟨hanim, -, -, hsamples⟩ := hstep hs
    exact ⟨hanim ▸ hs.1, hsamples⟩
  case fadeOut d now =>
    obtain ⟨hstart, hwait, hfault, hstep⟩ := State.animate_rows h rfl
    refine ⟨hstart, hwait, hfault, fun hs => ?_⟩
    obtain ⟨hanim, hlvl, -, hsamples⟩ := hstep hs
    rw [State.fadeOutTick_eq hs.1] at hanim hlvl
    exact ⟨by rw [hanim, hlvl], hsamples⟩
  case fadeIn d now =>
    obtain ⟨hstart, hwait, hfault, hstep⟩ := State.animate_rows h rfl
    refine ⟨hstart, hwait, hfault, fun hs => ?_⟩
    obtain ⟨hanim, hlvl, -, hsamples⟩ := hstep hs
    rw [State.fadeInTick_eq hs.1] at hanim hlvl
    exact ⟨by rw [hanim, hlvl], hsamples⟩
  case scroll d now =>
    obtain ⟨hstart, hwait, hfault, hstep⟩ := State.animate_rows h rfl
    refine ⟨hstart, hwait, hfault, fun hs => ?_⟩
    obtain ⟨hanim, -, hdisp, hsamples⟩ := hstep hs
    refine ⟨?_, hsamples⟩
    split
    case isTrue hin =>
      rw [State.stepScroll_within (s := s.trigger now) hin] at hanim
      exact hanim ▸ hs.1
    case isFalse hpast =>
      rw [State.stepScroll_end (s := s.trigger now) (Nat.lt_of_not_le hpast)] at hanim hdisp
      exact ⟨by rw [hanim], by rw [hdisp]⟩
  case resetAnim =>
    rw [exec_resetAnim] at h
    cases h
    exact ⟨rfl, rfl⟩
  all_goals exact congrArg Anim.kind (exec_anim rfl h)

end Sys2Proof.Machine
end

section
/-! Session misuse (60_exceptions.md): which operations fault, with what record, and that every other completes. -/

namespace Sys2Proof.Machine

/-- R115, R117: what an operation answers in the state s, where its misuse there is the one given: the fault and its
record with no other effect, or, with no misuse, a next state with the marks of s. -/
inductive State.AnswersMisuse (s : State) :
    Option (FaultCode × FaultRecord) → Host.Outcome State Fault Refusal → Prop
  | faults (f : FaultCode) (r : FaultRecord) :
      s.AnswersMisuse (some (f, r)) (.next { s with fault := f, faultRecord := some r })
  | completes {t : State} (hfault : t.fault = s.fault) (hrecord : t.faultRecord = s.faultRecord) :
      s.AnswersMisuse none (.next t)

/-- R115: the misuse of an animation operation of kind k: a due tick in an open session. -/
def State.tickMisuse (s : State) (k : AnimKind) (opcode : Byte) (now : Millis) : Option (FaultCode × FaultRecord) :=
  if s.bus.sessOpen = true ∧ s.anim.kind = k ∧ s.dueAt now then some (.f3FrameInSession, ⟨opcode, none⟩) else none

/-! ### The misuse that R115 lists for each operation -/

theorem sessionMisuse_beginFrame (s : State) :
    sessionMisuse .beginFrame s = if s.bus.sessOpen then some (.f1SessionOpen, ⟨0x01#8, none⟩) else none := by
  cases ho : s.bus.sessOpen <;> simp [sessionMisuse, ho]

theorem sessionMisuse_endFrame (s : State) :
    sessionMisuse .endFrame s = if s.bus.sessOpen then none else some (.f2NoSession, ⟨0x02#8, none⟩) := by
  cases ho : s.bus.sessOpen <;> simp [sessionMisuse, ho]

theorem sessionMisuse_send (b : Byte) (s : State) :
    sessionMisuse (.send b) s = if s.bus.sessOpen then none else some (.f2NoSession, ⟨0x03#8, some b⟩) := by
  cases ho : s.bus.sessOpen <;> simp [sessionMisuse, ho]

theorem sessionMisuse_refresh (s : State) :
    sessionMisuse .refresh s = if s.bus.sessOpen then some (.f3FrameInSession, ⟨0x30#8, none⟩) else none := by
  cases ho : s.bus.sessOpen <;> simp [sessionMisuse, ho]

theorem sessionMisuse_blink (d now : Millis) (s : State) :
    sessionMisuse (.blink d now) s = s.tickMisuse .blink 0x40#8 now := by
  cases ho : s.bus.sessOpen <;> simp [sessionMisuse, State.tickMisuse, ho]

theorem sessionMisuse_fadeOut (d now : Millis) (s : State) :
    sessionMisuse (.fadeOut d now) s = s.tickMisuse .fadeOut 0x41#8 now := by
  cases ho : s.bus.sessOpen <;> simp [sessionMisuse, State.tickMisuse, ho]

theorem sessionMisuse_fadeIn (d now : Millis) (s : State) :
    sessionMisuse (.fadeIn d now) s = s.tickMisuse .fadeIn 0x42#8 now := by
  cases ho : s.bus.sessOpen <;> simp [sessionMisuse, State.tickMisuse, ho]

theorem sessionMisuse_scroll (d now : Millis) (s : State) :
    sessionMisuse (.scroll d now) s = s.tickMisuse .scroll 0x43#8 now := by
  cases ho : s.bus.sessOpen <;> simp [sessionMisuse, State.tickMisuse, ho]

/-! ### What each operation answers -/

/-- R99: REFRESH with no session open. -/
theorem exec_refresh_closed {s : State} (h : s.bus.sessOpen = false) :
    exec .refresh s =
      .next { s with bus := s.refreshBody.2, results := s.results ++ [.ack s.refreshBody.1] } :=
  execRefresh_closed h

/-- R99, R115: REFRESH in an open session. -/
theorem exec_refresh_open {s : State} (h : s.bus.sessOpen = true) :
    exec .refresh s = .next { s with fault := .f3FrameInSession, faultRecord := some ⟨0x30#8, none⟩ } := by
  simp [exec, execRefresh, State.raiseFault, h]

/-- R101, R115: an animation operation whose step keeps the marks faults on a due tick in an open session, and completes
at a start, an early tick or a due tick outside a session. -/
theorem State.animate_answersMisuse (s next : State) (hfault : next.fault = s.fault)
    (hrecord : next.faultRecord = s.faultRecord) (k : AnimKind) (opcode : Byte) (d now : Millis) :
    s.AnswersMisuse (s.tickMisuse k opcode now) (s.animate k opcode d now next) := by
  simp only [State.tickMisuse, ← State.due_iff]
  rcases State.animate_cases s k opcode d now next with
    ⟨hk, h⟩ | ⟨-, hd, h⟩ | ⟨hk, hd, ho, h⟩ | ⟨-, -, ho, h⟩ <;> rw [h]
  · rw [if_neg fun ⟨_, hk', _⟩ => hk hk']
    exact .completes rfl rfl
  · rw [if_neg (by simp [hd])]
    exact .completes rfl rfl
  · rw [if_pos ⟨ho, hk, hd⟩]
    exact .faults _ _
  · rw [if_neg (by simp [ho])]
    exact .completes hfault hrecord

/-- R115: every host operation answers its misuse. -/
theorem exec_answersMisuse {i : Instr} (hi : hostOpcode i ≠ none) (s : State) :
    s.AnswersMisuse (sessionMisuse i s) (exec i s) := by
  cases i
  case beginFrame =>
    rw [sessionMisuse_beginFrame]
    cases ho : s.bus.sessOpen
    · rw [exec_beginFrame_closed ho]; exact .completes rfl rfl
    · rw [exec_beginFrame_open ho]; exact .faults _ _
  case endFrame =>
    rw [sessionMisuse_endFrame]
    cases ho : s.bus.sessOpen
    · rw [exec_endFrame_closed ho]; exact .faults _ _
    · rw [exec_endFrame_open ho]; exact .completes rfl rfl
  case send b =>
    rw [sessionMisuse_send]
    cases ho : s.bus.sessOpen
    · rw [exec_send_closed ho]; exact .faults _ _
    · rw [exec_send_open ho]; exact .completes rfl rfl
  case refresh =>
    rw [sessionMisuse_refresh]
    cases ho : s.bus.sessOpen
    · rw [exec_refresh_closed ho]; exact .completes rfl rfl
    · rw [exec_refresh_open ho]; exact .faults _ _
  case blink d now =>
    rw [sessionMisuse_blink]
    exact s.animate_answersMisuse (s.trigger now).stepBlink rfl rfl .blink 0x40#8 d now
  case fadeOut d now =>
    rw [sessionMisuse_fadeOut]
    exact s.animate_answersMisuse (s.trigger now).stepFadeOut rfl rfl .fadeOut 0x41#8 d now
  case fadeIn d now =>
    rw [sessionMisuse_fadeIn]
    exact s.animate_answersMisuse (s.trigger now).stepFadeIn rfl rfl .fadeIn 0x42#8 d now
  case scroll d now =>
    rw [sessionMisuse_scroll]
    exact s.animate_answersMisuse (s.trigger now).stepScroll rfl rfl .scroll 0x43#8 d now
  case wireDataAuto | wireDataFixed | wireAddr | wireDispOff | wireDispOn | wirePayload => exact absurd rfl hi
  all_goals exact .completes rfl rfl

/-- Settles O9: every host operation answers the misuse that R115 lists for it. -/
theorem faultsAreExactlySessionMisuse : Obligations.FaultsAreExactlySessionMisuse := by
  intro i s hi
  have h := exec_answersMisuse hi s
  generalize sessionMisuse i s = m, exec i s = o at h ⊢
  cases h with
  | faults f r => rfl
  | completes hfault hrecord => exact ⟨_, rfl, hfault, hrecord⟩

end Sys2Proof.Machine
end

section
/-! Reset (70_reset_and_hazards.md): the two host operations that reach the reset values (R128). -/

namespace Sys2Proof.Machine

/-- R89, R128: with the window at 0 a cleared display is the reset one, as its buffer lists no cell. -/
theorem Display.clear_win_eq_reset {c : Config} {d : Display} (h : d.BufferOk c) :
    { d.clear c with win := 0 } = (State.resetWith c).disp :=
  congrArg (fun buf => { d.clear c with buf := buf, win := 0 }) (Display.clear_buf h)

/-- Settles O15: CLEAR, then RESETANIM, whose window of 0 completes the reset display. -/
theorem clearThenResetAnimReachesReset : Obligations.ClearThenResetAnimReachesReset :=
  fun s hinv hfault => ⟨_, _, exec_clear s, exec_resetAnim _, Display.clear_win_eq_reset hinv.bufferOk, rfl, hfault,
    rfl, rfl, rfl, rfl⟩

end Sys2Proof.Machine
end

section
/-! The decoder and the encoder (30_encoding.md): each reads back what the other writes (R65), and which opcodes and
operand lists are refused (R66 to R68, R116). -/

namespace Sys2Proof

open Machine

/-! ### Which host calls decode (R65 to R68) -/

/-- R65, R68, R116: an opcode is illegal exactly when it fixes no operand list. -/
theorem decode_illegalOpcode_iff (c : HostCall) :
    decode (.call c) = .error .illegalOpcode ↔ operandTypes c.opcode = none := by
  simp only [decode, decodeCall]
  cases operandTypes c.opcode with
  | none => simp
  | some types =>
    by_cases hl : c.operands.length = types.length
    · cases hostInstr c.opcode c.operands <;> simp [hl]
    · simp [hl]

/-- R68: the opcodes that R67 does not list. -/
theorem operandTypes_none_iff (op : Byte) :
    operandTypes op = none ↔
      op.toNat = 0x00 ∨ (0x04 ≤ op.toNat ∧ op.toNat ≤ 0x0F) ∨ (0x17 ≤ op.toNat ∧ op.toNat ≤ 0x1F) ∨
        (0x25 ≤ op.toNat ∧ op.toNat ≤ 0x2F) ∨ (0x31 ≤ op.toNat ∧ op.toNat ≤ 0x3F) ∨ 0x45 ≤ op.toNat := by
  revert op
  decide +kernel

/-! ### Encoding and decoding -/

/-- Settles O1: every operand reads back from its written form, and every wire byte has its class. -/
theorem decodeOfEncodeIsTheInstruction : Obligations.DecodeOfEncodeIsTheInstruction := by
  intro i hwf
  cases i
  case beginFrame | endFrame | overlay | clear | refresh | resetAnim => exact decodeCall_ok rfl rfl rfl
  case send b => exact decodeCall_ok rfl rfl (by simp [hostInstr_send])
  case encodeSym sym => exact decodeCall_ok rfl rfl (by simp [hostInstr_encodeSym])
  case setContent syms off ovf pad =>
    have hlen : syms.length ≤ 255 := by simpa [Instr.wellFormed] using hwf
    exact decodeCall_ok rfl rfl (by simp [hostInstr_setContent, Operand.asSyms_ofSyms hlen])
  case setNumber v off ovf pad => exact decodeCall_ok rfl rfl (by simp [hostInstr_setNumber])
  case setColon c => exact decodeCall_ok rfl rfl (by simp [hostInstr_setColon])
  case setDp m => exact decodeCall_ok rfl rfl (by simp [hostInstr_setDp])
  case fromLevel n => exact decodeCall_ok rfl rfl (by simp [hostInstr_fromLevel])
  case toPercent l => exact decodeCall_ok rfl rfl (by simp [hostInstr_toPercent])
  case fromPercent p => exact decodeCall_ok rfl rfl (by simp [hostInstr_fromPercent])
  case setLevel n => exact decodeCall_ok rfl rfl (by simp [hostInstr_setLevel])
  case setPercent p => exact decodeCall_ok rfl rfl (by simp [hostInstr_setPercent])
  case blink d now => exact decodeCall_ok rfl rfl (by simp [hostInstr_blink])
  case fadeOut d now => exact decodeCall_ok rfl rfl (by simp [hostInstr_fadeOut])
  case fadeIn d now => exact decodeCall_ok rfl rfl (by simp [hostInstr_fadeIn])
  case scroll d now => exact decodeCall_ok rfl rfl (by simp [hostInstr_scroll])
  case wireDataAuto | wireDataFixed | wireDispOff | wirePayload => rfl
  case wireAddr a => exact decodeCommand_wireAddr a
  case wireDispOn ppp => exact decodeCommand_wireDispOn ppp

/-! ### What reads is what was written -/

theorem Operand.asU8_eq_some_iff {o : Operand} {b : Byte} : o.asU8 = some b ↔ o = .ofUnsigned b :=
  ⟨Operand.asU8_some, fun h => h ▸ Operand.asU8_ofUnsigned b⟩

theorem Operand.asU32_eq_some_iff {o : Operand} {b : Millis} : o.asU32 = some b ↔ o = .ofUnsigned b :=
  ⟨Operand.asU32_some, fun h => h ▸ Operand.asU32_ofUnsigned b⟩

theorem Operand.asI32_eq_some_iff {o : Operand} {b : Int32Word} : o.asI32 = some b ↔ o = .ofInt b.toInt :=
  ⟨Operand.asI32_some, fun h => h ▸ Operand.asI32_ofInt b⟩

theorem Operand.asBit_eq_some_iff {o : Operand} {b : Bool} : o.asBit = some b ↔ o = .ofBit b :=
  ⟨Operand.asBit_some, fun h => h ▸ Operand.asBit_ofBit b⟩

theorem Operand.asLvl_eq_some_iff {o : Operand} {l : Fin 9} : o.asLvl = some l ↔ o = .ofInt l.val :=
  ⟨Operand.asLvl_some, fun h => h ▸ Operand.asLvl_ofInt l⟩

theorem Operand.asRat_eq_some_iff {o : Operand} {q : Rat} : o.asRat = some q ↔ o = .num q :=
  ⟨Operand.asRat_some, fun h => h ▸ Operand.asRat_num q⟩

theorem Operand.asSyms_eq_some_iff {o : Operand} {l : List Byte} :
    o.asSyms = some l ↔ o = .ofSyms l ∧ l.length ≤ 255 :=
  ⟨Operand.asSyms_some, fun h => h.1 ▸ Operand.asSyms_ofSyms h.2⟩

/-- R65, R66: what a host call reads as is well formed, and is written as that call. -/
theorem encode_of_hostInstr {op : Byte} {ops : List Operand} {i : Instr} (h : hostInstr op ops = some i) :
    encode i = .call ⟨op, ops⟩ ∧ i.wellFormed = true := by
  obtain ⟨n, hn⟩ : ∃ n, op.toNat = n := ⟨_, rfl⟩
  obtain rfl : op = BitVec.ofNat 8 n := by simp [← hn]
  unfold hostInstr at h
  rw [hn] at h
  split at h
  case h_22 => cases h
  all_goals
    simp only [bind, pure, Option.bind_eq_some_iff, Option.some.injEq, Operand.asU8_eq_some_iff,
      Operand.asU32_eq_some_iff, Operand.asI32_eq_some_iff, Operand.asBit_eq_some_iff, Operand.asLvl_eq_some_iff,
      Operand.asRat_eq_some_iff, Operand.asSyms_eq_some_iff] at h
  case h_5 =>
    obtain ⟨syms, ⟨rfl, hlen⟩, off, rfl, ovf, rfl, pad, rfl, rfl⟩ := h
    exact ⟨rfl, decide_eq_true hlen⟩
  case h_6 =>
    obtain ⟨v, rfl, off, rfl, ovf, rfl, pad, rfl, rfl⟩ := h
    exact ⟨rfl, rfl⟩
  case h_1 | h_2 | h_7 | h_8 | h_16 | h_21 =>
    cases h
    exact ⟨rfl, rfl⟩
  case h_17 | h_18 | h_19 | h_20 =>
    obtain ⟨d, rfl, now, rfl, rfl⟩ := h
    exact ⟨rfl, rfl⟩
  all_goals
    obtain ⟨w, rfl, rfl⟩ := h
    exact ⟨rfl, rfl⟩

/-- R59 to R62: what a byte at a command place reads as is written as that byte. -/
theorem encode_of_decodeCommand {b : Byte} {i : Instr} (h : decodeCommand b = .ok i) :
    encode i = .command b ∧ i.wellFormed = true := by
  have split4 : b = b.extractLsb' 4 4 ++ b.extractLsb' 0 4 := by
    rw [BitVec.extractLsb'_append_extractLsb'_eq_extractLsb' (show 4 = 0 + 4 from rfl), BitVec.extractLsb'_eq_self]
  have split3 : b = b.extractLsb' 3 5 ++ b.extractLsb' 0 3 := by
    rw [BitVec.extractLsb'_append_extractLsb'_eq_extractLsb' (show 3 = 0 + 3 from rfl), BitVec.extractLsb'_eq_self]
  unfold decodeCommand at h
  split_ifs at h with hauto hfixed haddr hoff hon <;> cases h
  · exact ⟨congrArg _ hauto.symm, rfl⟩
  · exact ⟨congrArg _ hfixed.symm, rfl⟩
  · rw [haddr] at split4
    exact ⟨congrArg _ split4.symm, rfl⟩
  · exact ⟨congrArg _ hoff.symm, rfl⟩
  · rw [hon] at split3
    exact ⟨congrArg _ split3.symm, rfl⟩

/-- Settles O2: format by format, what reads is what was written. -/
theorem encodeOfDecodeIsTheInput : Obligations.EncodeOfDecodeIsTheInput := by
  intro x i h
  cases x with
  | call c => exact encode_of_hostInstr (decodeCall_cases h)
  | command b => exact encode_of_decodeCommand h
  | content b =>
    cases h
    exact ⟨rfl, rfl⟩

/-! ### Which operands an opcode takes (R66, R67) -/

/-- R66: an operand is of its type exactly when it is the written form of a value of the type. -/
theorem admits_iff_written (t : OperandType) (o : Operand) :
    OperandType.admits t o ↔
      match t with
      | .u8 => ∃ b : Byte, o = .ofUnsigned b
      | .bit => ∃ b, o = .ofBit b
      | .i32 => ∃ v : Int32Word, o = .ofInt v.toInt
      | .lvl => ∃ l : Fin 9, o = .ofInt l.val
      | .rat => ∃ q, o = .num q
      | .u32 => ∃ w : Millis, o = .ofUnsigned w
      | .symSeq => ∃ l, o = .ofSyms l ∧ l.length ≤ 255 := by
  rw [admits_iff]
  cases t <;>
    simp only [Operand.asU8_eq_some_iff, Operand.asU32_eq_some_iff, Operand.asI32_eq_some_iff,
      Operand.asBit_eq_some_iff, Operand.asLvl_eq_some_iff, Operand.asRat_eq_some_iff, Operand.asSyms_eq_some_iff]

@[simp] theorem admits_u8 (b : Byte) : OperandType.admits .u8 (.ofUnsigned b) := (admits_iff_written _ _).2 ⟨b, rfl⟩

@[simp] theorem admits_bit (b : Bool) : OperandType.admits .bit (.ofBit b) := (admits_iff_written _ _).2 ⟨b, rfl⟩

@[simp] theorem admits_i32 (v : Int32Word) : OperandType.admits .i32 (.ofInt v.toInt) :=
  (admits_iff_written _ _).2 ⟨v, rfl⟩

@[simp] theorem admits_lvl (l : Fin 9) : OperandType.admits .lvl (.ofInt l.val) := (admits_iff_written _ _).2 ⟨l, rfl⟩

@[simp] theorem admits_rat (q : Rat) : OperandType.admits .rat (.num q) := ⟨q, rfl⟩

@[simp] theorem admits_u32 (w : Millis) : OperandType.admits .u32 (.ofUnsigned w) :=
  (admits_iff_written _ _).2 ⟨w, rfl⟩

theorem admits_symSeq {l : List Byte} (h : l.length ≤ 255) : OperandType.admits .symSeq (.ofSyms l) :=
  (admits_iff_written _ _).2 ⟨l, rfl, h⟩

/-- R65 to R67: the operands that a well-formed instruction is written with are of the types of its opcode. -/
theorem encode_admits {i : Instr} {op : Byte} {ops : List Operand} (hi : encode i = .call ⟨op, ops⟩)
    (hwf : i.wellFormed = true) :
    ∃ types, operandTypes op = some types ∧ List.Forall₂ OperandType.admits types ops := by
  cases i
  case wireDataAuto | wireDataFixed | wireAddr | wireDispOff | wireDispOn | wirePayload => cases hi
  case setContent syms off ovf pad =>
    cases hi
    exact ⟨_, rfl, by simpa using admits_symSeq (of_decide_eq_true hwf)⟩
  all_goals
    cases hi
    exact ⟨_, rfl, by simp⟩

/-- R67: the table lists the types that the decoder takes. -/
theorem operandTypes_of_mem {op : Byte} {types : List OperandType} (h : (op, types) ∈ operandTable) :
    operandTypes op = some types := by
  fin_cases h <;> rfl

/-- R65 to R67: operands of the types of a listed opcode are the written form of an instruction. -/
theorem exists_encode_of_admits {op : Byte} {types : List OperandType} (h : (op, types) ∈ operandTable)
    {ops : List Operand} (hops : List.Forall₂ OperandType.admits types ops) :
    ∃ i : Instr, i.wellFormed = true ∧ encode i = .call ⟨op, ops⟩ := by
  fin_cases h <;>
    simp only [List.forall₂_cons_left_iff, List.forall₂_nil_left_iff, admits_iff_written] at hops
  · subst hops; exact ⟨.beginFrame, rfl, rfl⟩
  · subst hops; exact ⟨.endFrame, rfl, rfl⟩
  · obtain ⟨_, _, ⟨w, rfl⟩, rfl, rfl⟩ := hops; exact ⟨.send w, rfl, rfl⟩
  · obtain ⟨_, _, ⟨w, rfl⟩, rfl, rfl⟩ := hops; exact ⟨.encodeSym w, rfl, rfl⟩
  · obtain ⟨_, _, ⟨syms, rfl, hlen⟩, ⟨_, _, ⟨off, rfl⟩, ⟨_, _, ⟨ovf, rfl⟩, ⟨_, _, ⟨pad, rfl⟩, rfl, rfl⟩, rfl⟩, rfl⟩,
      rfl⟩ := hops
    exact ⟨.setContent syms off ovf pad, decide_eq_true hlen, rfl⟩
  · obtain ⟨_, _, ⟨v, rfl⟩, ⟨_, _, ⟨off, rfl⟩, ⟨_, _, ⟨ovf, rfl⟩, ⟨_, _, ⟨pad, rfl⟩, rfl, rfl⟩, rfl⟩, rfl⟩,
      rfl⟩ := hops
    exact ⟨.setNumber v off ovf pad, rfl, rfl⟩
  · subst hops; exact ⟨.overlay, rfl, rfl⟩
  · subst hops; exact ⟨.clear, rfl, rfl⟩
  · obtain ⟨_, _, ⟨w, rfl⟩, rfl, rfl⟩ := hops; exact ⟨.setColon w, rfl, rfl⟩
  · obtain ⟨_, _, ⟨w, rfl⟩, rfl, rfl⟩ := hops; exact ⟨.setDp w, rfl, rfl⟩
  · obtain ⟨_, _, ⟨w, rfl⟩, rfl, rfl⟩ := hops; exact ⟨.fromLevel w, rfl, rfl⟩
  · obtain ⟨_, _, ⟨w, rfl⟩, rfl, rfl⟩ := hops; exact ⟨.toPercent w, rfl, rfl⟩
  · obtain ⟨_, _, ⟨w, rfl⟩, rfl, rfl⟩ := hops; exact ⟨.fromPercent w, rfl, rfl⟩
  · obtain ⟨_, _, ⟨w, rfl⟩, rfl, rfl⟩ := hops; exact ⟨.setLevel w, rfl, rfl⟩
  · obtain ⟨_, _, ⟨w, rfl⟩, rfl, rfl⟩ := hops; exact ⟨.setPercent w, rfl, rfl⟩
  · subst hops; exact ⟨.refresh, rfl, rfl⟩
  · obtain ⟨_, _, ⟨d, rfl⟩, ⟨_, _, ⟨now, rfl⟩, rfl, rfl⟩, rfl⟩ := hops; exact ⟨.blink d now, rfl, rfl⟩
  · obtain ⟨_, _, ⟨d, rfl⟩, ⟨_, _, ⟨now, rfl⟩, rfl, rfl⟩, rfl⟩ := hops; exact ⟨.fadeOut d now, rfl, rfl⟩
  · obtain ⟨_, _, ⟨d, rfl⟩, ⟨_, _, ⟨now, rfl⟩, rfl, rfl⟩, rfl⟩ := hops; exact ⟨.fadeIn d now, rfl, rfl⟩
  · obtain ⟨_, _, ⟨d, rfl⟩, ⟨_, _, ⟨now, rfl⟩, rfl, rfl⟩, rfl⟩ := hops; exact ⟨.scroll d now, rfl, rfl⟩
  · subst hops; exact ⟨.resetAnim, rfl, rfl⟩

/-- R65 to R67: a call of a listed opcode decodes exactly when its operands are of the opcode's types. -/
theorem decode_ok_iff_admits {op : Byte} {types : List OperandType} (h : (op, types) ∈ operandTable)
    (ops : List Operand) : (∃ i, decode (.call ⟨op, ops⟩) = .ok i) ↔ List.Forall₂ OperandType.admits types ops := by
  constructor
  · rintro ⟨i, hi⟩
    obtain ⟨henc, hwf⟩ := encodeOfDecodeIsTheInput _ i hi
    obtain ⟨types', ht, hops⟩ := encode_admits henc hwf
    obtain rfl : types' = types := Option.some.inj (ht.symm.trans (operandTypes_of_mem h))
    exact hops
  · intro hops
    obtain ⟨i, hwf, henc⟩ := exists_encode_of_admits h hops
    exact ⟨i, henc ▸ decodeOfEncodeIsTheInstruction i hwf⟩

/-! ### Refused calls (R68, R116) -/

/-- R116: a call that the decoder refuses sets the refused mark, and is taken. -/
theorem step_of_decode_error {s : State} (hrun : s.Running) {x : HostInput} {rest : List HostInput}
    (hp : s.pending = x :: rest) (hx : ¬ ∃ i, decode x = .ok i) :
    step s = .next { s with refused := true, pending := rest } := by
  cases hd : decode x with
  | error e => exact step_refused hrun hp hd
  | ok i => exact absurd ⟨i, hd⟩ hx

/-- Settles O4: an opcode of these ranges is the decoder's illegal opcode, and no other is. -/
theorem unlistedOpcodesAreRefused : Obligations.UnlistedOpcodesAreRefused := by
  intro c n
  split
  case isTrue hn =>
    intro s rest hrun hp
    have hillegal := (decode_illegalOpcode_iff c).2 ((operandTypes_none_iff c.opcode).2 hn)
    exact step_of_decode_error hrun hp (by simp [hillegal])
  case isFalse hn => exact fun h => hn ((operandTypes_none_iff c.opcode).1 ((decode_illegalOpcode_iff c).1 h))

/-- Settles O5: a listed opcode's call decodes exactly when its operands are of the opcode's types. -/
theorem operandsOutsideTheirTypeAreRefused : Obligations.OperandsOutsideTheirTypeAreRefused := by
  intro op types ops h
  rw [← decode_ok_iff_admits h]
  exact ⟨id, fun hno _ _ hrun hp => step_of_decode_error hrun hp hno⟩

/-- Settles O3: the readers, the wire classes and the content format on twelve inputs. -/
theorem writtenEncodingsDecode : Obligations.WrittenEncodingsDecode := by
  unfold Obligations.WrittenEncodingsDecode
  decide +kernel

end Sys2Proof
end

section
/-! Steps and runs (10_state.md, 60_exceptions.md): which instruction a step runs, what each instruction writes and what
it leaves unchanged (R17 to R32), and what a run keeps (R14, R49, R117). -/

namespace Sys2Proof.Machine

/-! ### Steps -/

/-- R16: a step runs the instruction that the next input decodes to. -/
theorem step_run {s : State} (h : s.Running) {x : HostInput} {rest : List HostInput} {i : Instr}
    (hp : s.pending = x :: rest) (hd : decode x = .ok i) : step s = exec i { s with pending := rest } := by
  obtain ⟨hlegal, hfault, hreset⟩ := h
  simp [step, State.fetch, hlegal, hfault, hreset, hp, hd]

/-- Settles O7: the step is the instruction's. -/
theorem stepRunsTheDecodedInstruction : Obligations.StepRunsTheDecodedInstruction :=
  fun _ _ _ _ hrun hp hd => step_run hrun hp hd

/-- Settles O8: the step of a block that has nothing pending. -/
theorem blockWaitsForTheHost : Obligations.BlockWaitsForTheHost := fun _ => step_waiting

/-- Settles O14: the step is the reset, whose elements are known. -/
theorem resetInsideARunKeepsTheMarks : Obligations.ResetInsideARunKeepsTheMarks := fun _ hreset hfault =>
  ⟨_, step_reset hfault hreset, rfl, rfl, rfl, rfl, rfl, rfl, rfl, rfl, rfl, rfl, rfl, rfl, rfl, rfl⟩

/-! ### What an instruction leaves unchanged (R17 to R32) -/

/-- The instructions that drive the lines and write nothing else: BEGIN, END, SEND, the wire bytes and REFRESH. -/
def onlyDrivesLines : Instr → Bool
  | .beginFrame | .endFrame | .send _ | .wireDataAuto | .wireDataFixed | .wireAddr _ | .wireDispOff | .wireDispOn _
  | .wirePayload _ | .refresh => true
  | _ => false

/-- R17 to R20, R113: these write the lines, the fault's mark and record, and the results. -/
theorem exec_onlyDrivesLines {i : Instr} {s t : State} (hi : onlyDrivesLines i = true) (h : exec i s = .next t) :
    t = { s with bus := t.bus, fault := t.fault, faultRecord := t.faultRecord, results := t.results } := by
  cases i
  case beginFrame | endFrame | refresh =>
    simp only [exec, execBegin, execEnd, execRefresh] at h
    split at h <;> cases h <;> rfl
  case send | wireDataAuto | wireDataFixed | wireAddr | wireDispOff | wireDispOn | wirePayload =>
    change s.sendByte _ = _ at h
    rw [State.sendByte] at h
    split at h <;> cases h <;> rfl
  all_goals cases hi

/-- R101: an animation operation leaves the registers of the state it is given, of the start, or of the step. -/
theorem State.animate_registers {s t next : State} {k : AnimKind} {opcode : Byte} {d now : Millis}
    (h : s.animate k opcode d now next = .next t) :
    ∃ u ∈ [s, s.startAnim k d now, next],
      t = { u with bus := t.bus, fault := t.fault, faultRecord := t.faultRecord, results := t.results } := by
  rcases State.animate_cases s k opcode d now next with ⟨-, h'⟩ | ⟨-, -, h'⟩ | ⟨-, -, -, h'⟩ | ⟨-, -, -, h'⟩ <;>
    rw [h'] at h <;> cases h
  · exact ⟨s.startAnim k d now, by simp, rfl⟩
  · exact ⟨s, by simp, rfl⟩
  · exact ⟨s, by simp, rfl⟩
  · exact ⟨next, by simp, rfl⟩

/-- Settles O11: instruction by instruction, the registers it does not write. -/
theorem onlyNamedWritersWriteARegister : Obligations.OnlyNamedWritersWriteARegister := by
  intro i s t h
  cases i
  case beginFrame | endFrame | send | wireDataAuto | wireDataFixed | wireAddr | wireDispOff | wireDispOn | wirePayload
      | refresh =>
    rw [exec_onlyDrivesLines rfl h]
    exact ⟨⟨rfl, rfl, rfl, rfl⟩, ⟨rfl, rfl⟩, rfl, rfl, ⟨rfl, rfl⟩, rfl, trivial⟩
  case blink | fadeOut | fadeIn =>
    obtain ⟨u, hu, ht⟩ := State.animate_registers h
    rw [ht]
    fin_cases hu <;> exact ⟨⟨rfl, rfl, rfl, rfl⟩, ⟨rfl, rfl⟩, rfl, rfl, trivial, trivial, trivial⟩
  case scroll =>
    obtain ⟨u, hu, ht⟩ := State.animate_registers h
    rw [ht]
    fin_cases hu <;> exact ⟨⟨rfl, rfl, rfl, rfl⟩, ⟨rfl, rfl⟩, rfl, rfl, trivial, rfl, trivial⟩
  case setContent | setNumber =>
    cases h
    exact ⟨⟨rfl, rfl, rfl, rfl⟩, trivial, Display.setContent_colon .., Display.setContent_dp ..,
      ⟨Display.setContent_win .., rfl⟩, rfl, rfl⟩
  case clear => cases h; exact ⟨⟨rfl, rfl, rfl, rfl⟩, trivial, trivial, trivial, ⟨rfl, rfl⟩, rfl, rfl⟩
  case setColon => cases h; exact ⟨⟨rfl, rfl, rfl, rfl⟩, ⟨rfl, rfl⟩, trivial, rfl, ⟨rfl, rfl⟩, rfl, rfl⟩
  case setDp => cases h; exact ⟨⟨rfl, rfl, rfl, rfl⟩, ⟨rfl, rfl⟩, rfl, trivial, ⟨rfl, rfl⟩, rfl, rfl⟩
  case resetAnim => cases h; exact ⟨⟨rfl, rfl, rfl, rfl⟩, ⟨rfl, rfl⟩, rfl, rfl, trivial, rfl, rfl⟩
  case setLevel | setPercent => cases h; exact ⟨⟨rfl, rfl, rfl, rfl⟩, ⟨rfl, rfl⟩, rfl, rfl, ⟨rfl, rfl⟩, trivial, rfl⟩
  case encodeSym | overlay | fromLevel | toPercent | fromPercent =>
    cases h
    exact ⟨⟨rfl, rfl, rfl, rfl⟩, ⟨rfl, rfl⟩, rfl, rfl, ⟨rfl, rfl⟩, rfl, rfl⟩

/-! ### What a step and a run keep (R14, R33, R49) -/

/-- R14: no instruction changes the configuration. -/
theorem exec_cfg {i : Instr} {s t : State} (h : exec i s = .next t) : t.cfg = s.cfg := (exec_buffer h).1

/-- R116: no instruction changes the refused mark. -/
theorem exec_refused {i : Instr} {s t : State} (h : exec i s = .next t) : t.refused = s.refused := by
  obtain ⟨⟨-, hrefused, -⟩, -⟩ := onlyNamedWritersWriteARegister i s t h
  exact hrefused

/-- R49: an instruction adds events at the end of the trace. -/
theorem exec_trace {i : Instr} {s t : State} (h : exec i s = .next t) : ∃ e, t.bus.trace = s.bus.trace ++ e := by
  obtain hb | ⟨-, hb⟩ | ⟨-, hb⟩ | ⟨-, x, hb⟩ | ⟨-, u, hu, hb⟩ := exec_bus h <;> rw [hb]
  · exact ⟨[], (List.append_nil _).symm⟩
  · exact ⟨_, s.bus.startFrame_trace⟩
  · exact ⟨_, s.bus.stopFrame_trace⟩
  · exact ⟨_, s.bus.shiftByte_trace x⟩
  · exact ⟨_, hu ▸ u.refreshBody_trace⟩

/-- R14, R49: a step keeps the configuration and adds events at the end of the trace. -/
theorem step_cfg_trace {s t : State} (h : step s = .next t) :
    t.cfg = s.cfg ∧ ∃ e, t.bus.trace = s.bus.trace ++ e := by
  obtain ⟨-, ⟨-, rfl⟩ | ⟨-, -, rfl⟩ | ⟨-, -, rfl⟩ | ⟨x, rest, e, -, -, -, rfl⟩ | ⟨x, rest, i, -, -, -, hexec⟩⟩ :=
    step_cases h
  case inr.inr.inr.inr =>
    exact ⟨exec_cfg (s := { s with pending := rest }) hexec, exec_trace (s := { s with pending := rest }) hexec⟩
  all_goals exact ⟨rfl, [], (List.append_nil _).symm⟩

/-- Settles O12: by induction on the number of steps. -/
theorem runsKeepTheConfigurationAndExtendTheTrace : Obligations.RunsKeepTheConfigurationAndExtendTheTrace := by
  intro n
  induction n with
  | zero =>
    rintro s t ⟨⟩
    exact ⟨rfl, [], (List.append_nil _).symm⟩
  | succ n ih =>
    intro s t h
    rw [steps] at h
    split at h
    case h_1 u hstep =>
      obtain ⟨hcfg, e, htrace⟩ := step_cfg_trace hstep
      obtain ⟨hcfg', e', htrace'⟩ := ih u t h
      exact ⟨hcfg'.trans hcfg, e ++ e', by rw [htrace', htrace, List.append_assoc]⟩
    all_goals cases h

/-! ### Faults (R115, R117) -/

/-- R115: only a host operation has a misuse. -/
theorem hostOpcode_of_sessionMisuse {i : Instr} {s : State} {m : FaultCode × FaultRecord}
    (h : sessionMisuse i s = some m) : hostOpcode i ≠ none := by
  cases i
  case wireDataAuto | wireDataFixed | wireAddr | wireDispOff | wireDispOn | wirePayload =>
    simp [sessionMisuse] at h
  all_goals exact Option.some_ne_none _

/-- R115, R117: an instruction that misuses the session writes the fault and its record. -/
theorem exec_of_sessionMisuse {i : Instr} {s : State} {f : FaultCode} {r : FaultRecord}
    (h : sessionMisuse i s = some (f, r)) : exec i s = .next { s with fault := f, faultRecord := some r } := by
  have hans := faultsAreExactlySessionMisuse i s (hostOpcode_of_sessionMisuse h)
  simpa only [h] using hans

/-- R33: no step clears the refused mark. -/
theorem step_keeps_refused {s t : State} (h : step s = .next t) (hr : s.refused = true) : t.refused = true := by
  obtain ⟨-, ⟨-, rfl⟩ | ⟨-, -, rfl⟩ | ⟨-, -, rfl⟩ | ⟨x, rest, e, -, -, -, rfl⟩ | ⟨x, rest, i, -, -, -, hexec⟩⟩ :=
    step_cases h
  · exact hr
  · rfl
  · exact hr
  · rfl
  · exact (exec_refused hexec).trans hr

/-- Settles O10: the step runs the misuse, a faulted block's step answers `runEnded`, and no step clears the mark. -/
theorem faultIsRecordedAndEndsTheRun : Obligations.FaultIsRecordedAndEndsTheRun := by
  refine ⟨fun s x rest i f r hrun hp hd hm => ?records, fun s hf n => ?ends, fun s t => step_keeps_refused⟩
  case records =>
    rw [step_run hrun hp hd]
    exact exec_of_sessionMisuse (s := { s with pending := rest }) hm
  case ends => rw [steps, step_faulted hf]

/-- Settles O20: storing and clearing leave the cells from the capacity on. -/
theorem noWriteOutsideTheBuffer : Obligations.NoWriteOutsideTheBuffer := by
  intro i s t hc hwf h k hk
  obtain ⟨-, ⟨hbuf, -⟩ | ⟨syms, off, ovf, pad, hset⟩ | hclear⟩ := exec_buffer h
  · rw [hbuf]
  · have hcap := capacity_le hc ovf
    have hpn := (Config.legal_cap hc).1
    rw [hset, Display.setContent_read hc syms off ovf pad hwf, if_neg (by omega), if_neg (by omega), if_neg (by omega),
      if_neg (by omega)]
  · rw [hclear, Display.clear_read s.cfg hwf, if_neg (by omega)]

end Sys2Proof.Machine
end

section
/-! The state invariant (10_state.md sections 3 to 6): it holds at reset, and every instruction and every step keep it. -/

namespace Sys2Proof.Machine

/-! ### The display, the level and the animator (R23 to R32) -/

/-- R24 to R28, R32: the invariant's clauses on the display and on the level registers. -/
structure State.RegistersOk (s : State) : Prop where
  bufferOk : s.disp.BufferOk s.cfg
  overlayOk : s.disp.OverlayOk s.cfg
  levelsOk : s.LevelsOk

/-- The registers of a state with other lines, marks or results. -/
theorem State.RegistersOk.of_update {s t : State} (hs : s.RegistersOk)
    (ht : t = { s with bus := t.bus, fault := t.fault, faultRecord := t.faultRecord, results := t.results }) :
    t.RegistersOk := by
  obtain ⟨hbuf, hover, hlevels⟩ := hs
  rw [ht]
  exact ⟨hbuf, hover, hlevels⟩

/-- R127: the reset values. -/
theorem State.resetWith_registersOk {c : Config} (hc : c.legal = true) : (State.resetWith c).RegistersOk := by
  obtain ⟨-, -, -, -, -, hreset⟩ := (Config.legal_iff c).1 hc
  exact ⟨⟨rfl, Nat.zero_le _, by simp [State.resetWith]⟩, ⟨by simp [State.resetWith], Nat.zero_le _⟩, hreset,
    by simp [State.resetWith]⟩

/-- R84: storing content keeps the overlay and the window. -/
theorem Display.setContent_overlayOk {c : Config} {d : Display} (h : d.OverlayOk c) (syms : List Byte) (off : Nat)
    (ovf pad : Bool) : (d.setContent c syms off ovf pad).OverlayOk c := by
  simpa only [Display.OverlayOk, Display.setContent_dp, Display.setContent_win] using h

/-- R89: CLEAR leaves the reset buffer and overlay. -/
theorem State.RegistersOk.clear {s : State} (hs : s.RegistersOk) :
    State.RegistersOk { s with disp := s.disp.clear s.cfg } := by
  obtain ⟨hbuf, ⟨hdp, hwin⟩, hlevels⟩ := hs
  refine ⟨⟨Memory.wf_fill hbuf.1 _ _ _, Nat.zero_le _, ?_⟩, ⟨?_, hwin⟩, hlevels⟩
  · simp [Display.clear_buf hbuf]
  · simp [Display.clear]

/-- R91: the mask keeps the bits below P_N alone. -/
theorem State.RegistersOk.setDp {s : State} (hc : s.cfg.legal = true) (hs : s.RegistersOk) (m : Byte) :
    State.RegistersOk { s with disp := { s.disp with dp := dpMask s.cfg.pN m } } := by
  obtain ⟨hbuf, ⟨-, hwin⟩, hlevels⟩ := hs
  refine ⟨hbuf, ⟨fun p (hp : s.cfg.pN ≤ p) => ?_, hwin⟩, hlevels⟩
  rw [dpMask_getLsbD (Config.legal_pN hc).2, decide_eq_false (Nat.not_lt.2 hp), Bool.false_and]

/-- R101: a start saves the level and returns the window to 0. -/
theorem State.RegistersOk.startAnim {s : State} (hs : s.RegistersOk) (k : AnimKind) (d now : Millis) :
    (s.startAnim k d now).RegistersOk := by
  obtain ⟨hbuf, ⟨hdp, -⟩, hlvl, -⟩ := hs
  exact ⟨hbuf, ⟨hdp, Nat.zero_le _⟩, hlvl, hlvl⟩

/-- R103: a blink step exchanges level 0 with the level saved. -/
theorem State.RegistersOk.stepBlink {s : State} (hs : s.RegistersOk) : s.stepBlink.RegistersOk := by
  obtain ⟨hbuf, hover, hlvl, hsaved⟩ := hs
  refine ⟨hbuf, hover, ?_⟩
  by_cases h : s.lvl = 0#4
  · rw [State.stepBlink_off h]
    exact ⟨hsaved, hsaved⟩
  · rw [State.stepBlink_lit h]
    exact ⟨Nat.zero_le _, hlvl⟩

/-- R104: a fade-out step does not raise the level. -/
theorem State.RegistersOk.stepFadeOut {s : State} (hs : s.RegistersOk) : s.stepFadeOut.RegistersOk := by
  obtain ⟨hbuf, hover, hlvl, hsaved⟩ := hs
  refine ⟨hbuf, hover, ?_, hsaved⟩
  rw [State.stepFadeOut_lvl, fadeOutLevel_toNat]
  split <;> omega

/-- R105: a fade-in step raises no level past 8. -/
theorem State.RegistersOk.stepFadeIn {s : State} (hs : s.RegistersOk) : s.stepFadeIn.RegistersOk := by
  obtain ⟨hbuf, hover, hlvl, hsaved⟩ := hs
  refine ⟨hbuf, hover, ?_, hsaved⟩
  rw [State.stepFadeIn_lvl, fadeInLevel_toNat]
  split <;> omega

/-- R27, R106: a scroll step's window is at most the content length, which is within the capacity. -/
theorem State.RegistersOk.stepScroll {s : State} (hs : s.RegistersOk) : s.stepScroll.RegistersOk := by
  obtain ⟨hbuf, ⟨hdp, -⟩, hlevels⟩ := hs
  refine ⟨hbuf, ⟨hdp, ?_⟩, hlevels⟩
  have hlen := hbuf.2.1
  simp only [State.stepScroll_disp, State.stepScroll_cfg]
  split <;> omega

/-- R100: the time of the last trigger is under no invariant. -/
theorem State.RegistersOk.trigger {s : State} (hs : s.RegistersOk) (now : Millis) : (s.trigger now).RegistersOk :=
  ⟨hs.bufferOk, hs.overlayOk, hs.levelsOk⟩

/-- R101: an animation operation keeps what its step keeps. -/
theorem State.RegistersOk.animate {s t next : State} (hs : s.RegistersOk) (hnext : next.RegistersOk) {k : AnimKind}
    {opcode : Byte} {d now : Millis} (h : s.animate k opcode d now next = .next t) : t.RegistersOk := by
  obtain ⟨u, hu, ht⟩ := State.animate_registers h
  have hu : u.RegistersOk := by
    fin_cases hu
    · exact hs
    · exact hs.startAnim k d now
    · exact hnext
  exact hu.of_update ht

/-- R23 to R32: every instruction keeps the registers within their bounds. -/
theorem exec_registersOk {i : Instr} {s t : State} (hc : s.cfg.legal = true) (hs : s.RegistersOk)
    (h : exec i s = .next t) : t.RegistersOk := by
  have ⟨hbuf, hover, hlevels⟩ := hs
  cases i
  case beginFrame | endFrame | send | wireDataAuto | wireDataFixed | wireAddr | wireDispOff | wireDispOn | wirePayload
      | refresh => exact hs.of_update (exec_onlyDrivesLines rfl h)
  case encodeSym | overlay | fromLevel | toPercent | fromPercent =>
    cases h
    exact ⟨hbuf, hover, hlevels⟩
  case setContent | setNumber =>
    cases h
    exact ⟨Display.setContent_bufferOk hc _ _ _ _ hbuf, Display.setContent_overlayOk hover _ _ _ _, hlevels⟩
  case clear => cases h; exact hs.clear.of_update rfl
  case setColon => cases h; exact ⟨hbuf, hover, hlevels⟩
  case setDp m => cases h; exact (hs.setDp hc m).of_update rfl
  case setLevel n => cases h; exact ⟨hbuf, hover, fromLevelValue_le hc n.toInt, hlevels.2⟩
  case setPercent p => cases h; exact ⟨hbuf, hover, fromPercentValue_le s.cfg p, hlevels.2⟩
  case blink d now => exact hs.animate (hs.trigger now).stepBlink h
  case fadeOut d now => exact hs.animate (hs.trigger now).stepFadeOut h
  case fadeIn d now => exact hs.animate (hs.trigger now).stepFadeIn h
  case scroll d now => exact hs.animate (hs.trigger now).stepScroll h
  case resetAnim => cases h; exact ⟨hbuf, ⟨hover.1, Nat.zero_le _⟩, hlevels.1, Nat.zero_le _⟩

/-! ### The lines (R18, R74 to R76) -/

/-- R74 to R76, R99: every instruction leaves CLK high and DIO an output, and both lines high with no session open. -/
theorem exec_linesOk {i : Instr} {s t : State} (hs : s.bus.LinesOk) (h : exec i s = .next t) : t.bus.LinesOk := by
  obtain hb | ⟨-, hb⟩ | ⟨-, hb⟩ | ⟨ho, x, hb⟩ | ⟨-, u, -, hb⟩ := exec_bus h <;> rw [hb]
  · exact hs
  · rw [Bus.startFrame_eq]
    exact ⟨rfl, rfl, fun h => nomatch h⟩
  · rw [Bus.stopFrame_eq]
    exact ⟨rfl, hs.2.1, fun _ => rfl⟩
  · rw [Bus.shiftByte_snd]
    exact ⟨rfl, rfl, fun hclosed => absurd (ho.symm.trans hclosed) (by decide)⟩
  · rw [State.refreshBody_eq]
    exact ⟨rfl, rfl, fun _ => rfl⟩

/-- R127: the reset lines. -/
theorem State.resetWith_linesOk (c : Config) : (State.resetWith c).bus.LinesOk := ⟨rfl, rfl, fun _ => rfl⟩

/-! ### The invariant -/

theorem State.inv_iff (s : State) : s.Inv ↔ s.cfg.legal = true ∧ s.RegistersOk ∧ s.bus.LinesOk :=
  ⟨fun ⟨hc, hbuf, hover, hlevels, hlines⟩ => ⟨hc, ⟨hbuf, hover, hlevels⟩, hlines⟩,
    fun ⟨hc, ⟨hbuf, hover, hlevels⟩, hlines⟩ => ⟨hc, hbuf, hover, hlevels, hlines⟩⟩

/-- The invariant says nothing of the marks and of what is pending. -/
theorem State.Inv.of_update {s t : State} (hs : s.Inv)
    (ht : t = { s with refused := t.refused, pending := t.pending }) : t.Inv := by
  obtain ⟨hc, hbuf, hover, hlevels, hlines⟩ := hs
  rw [ht]
  exact ⟨hc, hbuf, hover, hlevels, hlines⟩

theorem State.resetWith_inv {c : Config} (hc : c.legal = true) : (State.resetWith c).Inv :=
  (State.inv_iff _).2 ⟨hc, State.resetWith_registersOk hc, State.resetWith_linesOk c⟩

/-- R33, R127: a reset inside a run has the reset values, and keeps what the host and the chip hold. -/
theorem State.resetInRun_inv {s : State} (hc : s.cfg.legal = true) : s.resetInRun.Inv := by
  obtain ⟨-, hbuf, hover, hlevels, hlines⟩ := State.resetWith_inv hc
  exact ⟨hc, hbuf, hover, hlevels, hlines⟩

theorem exec_inv {i : Instr} {s t : State} (hs : s.Inv) (h : exec i s = .next t) : t.Inv := by
  obtain ⟨hc, hregs, hlines⟩ := (State.inv_iff s).1 hs
  exact (State.inv_iff t).2 ⟨(exec_cfg h).symm ▸ hc, exec_registersOk hc hregs h, exec_linesOk hlines h⟩

/-- Settles O17: a step resets, refuses, waits or runs an instruction, and each keeps the invariant. -/
theorem stepKeepsTheInvariant : Obligations.StepKeepsTheInvariant := by
  intro s t hs h
  obtain ⟨-, ⟨-, rfl⟩ | ⟨-, -, rfl⟩ | ⟨-, -, rfl⟩ | ⟨x, rest, e, -, -, -, rfl⟩ | ⟨x, rest, i, -, -, -, hexec⟩⟩ :=
    step_cases h
  · exact State.resetInRun_inv hs.cfgLegal
  · exact hs.of_update rfl
  · exact hs
  · exact hs.of_update rfl
  · exact exec_inv (s := { s with pending := rest }) (hs.of_update rfl) hexec

/-- Settles O16: the reset values meet both invariants, a listener having read nothing. -/
theorem resetMeetsTheInvariant : Obligations.ResetMeetsTheInvariant :=
  ⟨fun c hc => ⟨State.resetWith_inv hc, rfl, rfl, rfl, rfl, rfl, rfl, rfl⟩,
    State.resetWith_inv (by decide +kernel)⟩

end Sys2Proof.Machine
end

section
/-! A listener on the two lines (R42, R72, R80): what it knows after each operation of the transport, so that it never
meets a malformed frame. -/

namespace Sys2Proof.Machine

/-- A listener that has read the whole trace is ready for the next operation, and has met nothing malformed. -/
structure Bus.Heard (b : Bus) : Prop where
  ready : (FrameReader.idle.read b.trace).Ready b.sessOpen b.dioLvl
  wellFormed : (FrameReader.idle.read b.trace).malformed = false

/-- R80: on lines that are as they should be between operations, this is the invariant on the wire. -/
theorem Bus.wireOk_iff_heard {b : Bus} (h : b.LinesOk) : b.WireOk ↔ b.Heard := by
  obtain ⟨hclk, hdir, -⟩ := h
  constructor
  · rintro ⟨hwell, hframe, hbits, hclk', hdir', hlatch, hline⟩
    exact ⟨⟨hclk'.trans hclk, hdir'.trans hdir, hlatch, hline, hframe, hbits⟩, hwell⟩
  · rintro ⟨⟨hclk', hdir', hlatch, hline, hframe, hbits⟩, hwell⟩
    exact ⟨hwell, hframe, hbits, hclk'.trans hclk.symm, hdir'.trans hdir.symm, hlatch, hline⟩

/-- What is heard after some events is what the listener has read before them, and the events. -/
theorem Bus.heard_of_trace {b c : Bus} {e : List Event} (htrace : c.trace = b.trace ++ e)
    (hready : ((FrameReader.idle.read b.trace).read e).Ready c.sessOpen c.dioLvl)
    (hwell : ((FrameReader.idle.read b.trace).read e).malformed = false) : c.Heard := by
  rw [← FrameReader.read_append, ← htrace] at hready hwell
  exact ⟨hready, hwell⟩

/-- R74: a start condition on idle lines. -/
theorem Bus.Heard.startFrame {b : Bus} (h : b.Heard) (ho : b.sessOpen = false) (hidle : b.dioLvl = true) :
    b.startFrame.Heard := by
  obtain ⟨hready, hwell⟩ := h
  rw [ho, hidle] at hready
  refine Bus.heard_of_trace b.startFrame_trace ?_ ?_ <;> rw [FrameReader.read_begin hready]
  · exact ⟨hready.clk, hready.dir, rfl, rfl, rfl, hready.bits⟩
  · exact hwell

/-- R75: a stop condition in a session. -/
theorem Bus.Heard.stopFrame {b : Bus} (h : b.Heard) (ho : b.sessOpen = true) : b.stopFrame.Heard := by
  obtain ⟨hready, hwell⟩ := h
  rw [ho] at hready
  refine Bus.heard_of_trace b.stopFrame_trace ?_ ?_ <;> rw [FrameReader.read_end hready]
  · exact ⟨hready.clk, hready.dir, rfl, rfl, rfl, hready.bits⟩
  · exact hwell

/-- R76: a byte in a session. -/
theorem Bus.Heard.shiftByte {b : Bus} (h : b.Heard) (ho : b.sessOpen = true) (x : Byte) :
    (b.shiftByte x).2.Heard := by
  obtain ⟨hready, hwell⟩ := h
  rw [ho] at hready
  refine Bus.heard_of_trace (b.shiftByte_trace x) ?_ ?_ <;> rw [FrameReader.read_byte hready]
  · rw [Bus.shiftByte_snd]
    exact ⟨hready.clk, hready.dir, rfl, rfl, hready.inFrame.trans ho.symm, hready.bits⟩
  · exact hwell

/-- R99: the frames of a refresh from idle lines. -/
theorem Bus.Heard.refreshBody {s : State} (h : s.bus.Heard) (ho : s.bus.sessOpen = false)
    (hidle : s.bus.dioLvl = true) : s.refreshBody.2.Heard := by
  obtain ⟨hready, hwell⟩ := h
  rw [ho, hidle] at hready
  have hcount : (s.bus.draws s.refreshBytes).length = byteCount (refreshFrames s.cfg (s.disp.txView s.cfg) s.lvl) :=
    Bus.draws_length _ _
  refine Bus.heard_of_trace s.refreshBody_trace ?_ ?_ <;> rw [FrameReader.read_frames hready _ _ hcount]
  · rw [State.refreshBody_eq]
    exact ⟨hready.clk, hready.dir, hready.latch, hready.line, hready.inFrame, hready.bits⟩
  · exact hwell

/-- R80: every instruction leaves a listener that has met nothing malformed. -/
theorem exec_heard {i : Instr} {s t : State} (hlines : s.bus.LinesOk) (hs : s.bus.Heard) (h : exec i s = .next t) :
    t.bus.Heard := by
  obtain ⟨-, -, hidle⟩ := hlines
  obtain hb | ⟨ho, hb⟩ | ⟨ho, hb⟩ | ⟨ho, x, hb⟩ | ⟨ho, u, hu, hb⟩ := exec_bus h <;> rw [hb]
  · exact hs
  · exact hs.startFrame ho (hidle ho)
  · exact hs.stopFrame ho
  · exact hs.shiftByte ho x
  · rw [← hu] at hs ho hidle
    exact hs.refreshBody ho (hidle ho)

/-- Settles O18: an instruction keeps what is known of the lines and what is heard, and every other step leaves the lines
as they are, a reset being left out by the premise. -/
theorem wireIsNeverMalformed : Obligations.WireIsNeverMalformed := by
  intro s t hlines hwire hreset h
  obtain ⟨-, ⟨hr, -⟩ | ⟨-, -, rfl⟩ | ⟨-, -, rfl⟩ | ⟨x, rest, e, -, -, -, rfl⟩ | ⟨x, rest, i, -, -, -, hexec⟩⟩ :=
    step_cases h
  · exact absurd (hreset.symm.trans hr) (by decide)
  · exact ⟨hlines, hwire⟩
  · exact ⟨hlines, hwire⟩
  · exact ⟨hlines, hwire⟩
  · have hlines' := exec_linesOk (s := { s with pending := rest }) hlines hexec
    have hheard := exec_heard (s := { s with pending := rest }) hlines ((Bus.wireOk_iff_heard hlines).1 hwire) hexec
    exact ⟨hlines', (Bus.wireOk_iff_heard hlines').2 hheard⟩

end Sys2Proof.Machine
end

section
/-! What a legal configuration has (R7, R82, R93), so that one without it is refused (R116), and what follows for ENCODE
and for the percents. -/

namespace Sys2Proof.Machine

/-! ### The encoder table (R82) -/

/-- R57, R82: outside the printable range no symbol has a fixed entry. -/
theorem fixedCode_unprintable {sym : Byte} (h : sym.toNat < 0x20 ∨ 0x7E < sym.toNat) : fixedCode sym = none := by
  unfold fixedCode
  split
  case h_13 => rfl
  all_goals omega

/-- R82: outside the printable range no symbol is of either variant's table. -/
theorem openSymbol_unprintable {sym : Byte} (h : sym.toNat < 0x20 ∨ 0x7E < sym.toNat) (v : EncVariant) :
    openSymbol v sym = false := by
  cases v <;> simp only [openSymbol, decide_eq_false_iff_not] <;> omega

/-- R57: the symbols with a fixed entry that is not blank. -/
theorem fixedCode_not_blank {sym code : Byte} (h : fixedCode sym = some code) (hcode : code ≠ 0x00#8) :
    (0x30 ≤ sym.toNat ∧ sym.toNat ≤ 0x39) ∨ sym = 0x2D#8 := by
  unfold fixedCode at h
  split at h
  case h_11 hminus => exact .inr (BitVec.eq_of_toNat_eq hminus)
  case h_12 =>
    cases h
    exact absurd rfl hcode
  case h_13 => cases h
  all_goals exact .inl (by omega)

/-- Settles O30: the table's properties are those of a legal one. -/
theorem encodeIsTotalAndNeverSetsTheOverlayBit : Obligations.EncodeIsTotalAndNeverSetsTheOverlayBit := by
  refine fun s sym hc => ⟨rfl, rfl, fun _ => Config.enc_fixed hc, Config.enc_bit7 hc sym, fun h => ?unprintable,
    fun hv hne => ?digitsAlpha⟩
  case unprintable => exact Config.enc_outside hc (fixedCode_unprintable h) (openSymbol_unprintable h _)
  case digitsAlpha =>
    cases hfix : fixedCode sym with
    | some code =>
      rw [Config.enc_fixed hc hfix] at hne
      exact (fixedCode_not_blank hfix hne).imp_right .inl
    | none =>
      by_contra hsym
      have hopen : openSymbol s.cfg.encVariant sym = false := by
        rw [hv]
        exact decide_eq_false fun hletter => hsym (.inr (.inr hletter))
      exact hne (Config.enc_outside hc hfix hopen)

/-! ### The percents (R93 to R96) -/

/-- R93, R96: the search for a level's own percent ends at that level, as the lower ones have less and it has enough. -/
theorem fromPercentIndex_pct {c : Config} (hc : c.legal = true) (l : Fin 9) : fromPercentIndex c c.pct[l] = l := by
  obtain ⟨hbelow, hreached⟩ := fromPercentIndex_spec c c.pct[l]
  rcases lt_trichotomy (fromPercentIndex c c.pct[l]) l with hlt | heq | hgt
  · have hless := pct_strictMono hc hlt
    rcases hreached with hge | h8
    · exact absurd hless (not_lt.2 hge)
    · omega
  · exact heq
  · exact absurd (hbelow l hgt) (lt_irrefl _)

/-- Settles O43: FROMPERCENT is the search. -/
theorem percentOfALevelConvertsBack : Obligations.PercentOfALevelConvertsBack := fun s l hc => by
  rw [exec_fromPercent, fromPercentIndex_pct hc]

/-! ### Illegal configurations and reset values -/

/-- Settles O6: a legal configuration meets each of the constraints, so one that breaks a constraint is illegal. -/
theorem illegalConfigurationsAreRefused : Obligations.IllegalConfigurationsAreRefused := by
  intro s hfault hreset hbroken
  refine step_illegal hfault hreset (Bool.eq_false_iff.2 fun hc => ?_)
  obtain ⟨hpN, hcap, -, hpct, hdefault, hlevel⟩ := (Config.legal_iff s.cfg).1 hc
  obtain ⟨hzero, hrises, hbounds, hnonlinear⟩ := (pctLegal_iff s.cfg.pct).1 hpct
  rcases hbroken with h | h | h | h | ⟨sym, h⟩ | ⟨sym, code, hfix, h⟩ | ⟨sym, hfix, hopen, h⟩ | h | ⟨l, h⟩ | ⟨l, h⟩ | h |
    h | h | h
  · omega
  · omega
  · omega
  · omega
  · exact absurd ((Config.enc_bit7 hc sym).symm.trans h) (by decide)
  · exact h (Config.enc_fixed hc hfix)
  · exact h (Config.enc_outside hc hfix hopen)
  · exact h hzero
  · exact absurd (hrises l) (not_lt.2 h)
  · obtain ⟨hnonneg, hle⟩ := hbounds l
    rcases h with h | h
    · exact absurd hnonneg (not_le.2 h)
    · exact absurd hle (not_le.2 h)
  · exact hnonlinear h
  · simp [h] at hdefault
  · omega
  · omega

/-- Settles O13: the reset state has the values of R127's table, its buffer listing no cell. -/
theorem resetValuesAreTheTable : Obligations.ResetValuesAreTheTable :=
  ⟨rfl, fun _ => ⟨rfl, rfl, rfl, rfl, Memory.read_nil, rfl, rfl, rfl, rfl, rfl, rfl, rfl, rfl, rfl, rfl, rfl⟩⟩

end Sys2Proof.Machine
end

section
/-! The transport (40_transport.md): the wire byte classes, the time a SEND holds, and whole frames. -/

namespace Sys2Proof.Machine

/-! ### The wire byte classes (R59 to R63) -/

/-- R60: the address command's byte, as the class bits with the address in the low ones. -/
theorem wireAddrByte_eq_or (a : BitVec 4) : 0b1100#4 ++ a = 0xC0#8 ||| a.zeroExtend 8 := by
  revert a
  decide

/-- R61: the display-on byte, as the class bits with the pulse width in the low ones. -/
theorem wireDispOnByte_eq_or (ppp : BitVec 3) : 0b10001#5 ++ ppp = 0x88#8 ||| ppp.zeroExtend 8 := by
  revert ppp
  decide

/-- Settles O24: each class runs as SEND of its byte, whose events are known. -/
theorem wireBytesAreShiftedOut : Obligations.WireBytesAreShiftedOut := by
  intro s a ppp c p hp
  have hsend : exec p.1 s = exec (.send p.2) s := by
    fin_cases hp
    · rfl
    · rfl
    · exact congrArg s.sendByte (wireAddrByte_eq_or a)
    · rfl
    · exact congrArg s.sendByte (wireDispOnByte_eq_or ppp)
    · rfl
  refine ⟨hsend, fun hopen => ⟨_, s.bus.nextAck, hsend.trans (exec_send_open hopen p.2), ?_, rfl⟩⟩
  exact s.bus.shiftByte_trace p.2

/-! ### Holds and samples (R77, R140) -/

theorem holdMicros_append (d e : List Event) : holdMicros (d ++ e) = holdMicros d + holdMicros e := by
  simp [holdMicros]

theorem sampledAcks_append (d e : List Event) : sampledAcks (d ++ e) = sampledAcks d ++ sampledAcks e :=
  List.filterMap_append

@[simp] theorem sampledAcks_cellEvents (v : Bool) : sampledAcks (cellEvents v) = [] := rfl

@[simp] theorem sampledAcks_ackEvents (a : Bool) : sampledAcks (ackEvents a) = [a] := by cases a <;> rfl

/-- R77: a byte has the one sample of its acknowledgement. -/
@[simp] theorem sampledAcks_byteEvents (b : Byte) (a : Bool) : sampledAcks (byteEvents b a) = [a] := by
  simp [byteEvents, sampledAcks_append]

/-- R76: a bit cell holds two bit times. -/
theorem holdMicros_cellEvents (v : Bool) : holdMicros (cellEvents v) = 2 * Config.microseconds .tBit := by
  simp [holdMicros, cellEvents]
  omega

/-- R76: an acknowledgement cell holds its settle time. -/
theorem holdMicros_ackEvents (a : Bool) : holdMicros (ackEvents a) = Config.microseconds .tSettle := by
  cases a <;> simp [holdMicros, ackEvents]

/-- R140: a byte holds sixteen bit times and a settle. -/
theorem holdMicros_byteEvents (b : Byte) (a : Bool) :
    holdMicros (byteEvents b a) = 16 * Config.microseconds .tBit + Config.microseconds .tSettle := by
  simp only [byteEvents, holdMicros_append, holdMicros_cellEvents, holdMicros_ackEvents]
  omega

/-- Settles O26: SEND adds the events of its byte, whose holds and one sample are known. -/
theorem sendHoldsSixteenBitTimes : Obligations.SendHoldsSixteenBitTimes := by
  intro b s hopen
  refine ⟨_, exec_send_open hopen b, ?_, ?_⟩
  · rw [Bus.shiftByte_trace, holdMicros_append, holdMicros_byteEvents, Nat.add_assoc]
  · rw [waitMicros, waitMicros, Bus.shiftByte_trace, sampledAcks_append, sampledAcks_byteEvents, List.length_append,
      List.length_singleton, Nat.add_one_mul]

/-! ### Whole frames (R42, R64) -/

/-- R77: the samples of a sequence of bytes are its draws. -/
theorem sampledAcks_bytesEvents {xs : List Byte} {as : List Bool} (hlen : xs.length = as.length) :
    sampledAcks (bytesEvents xs as) = as := by
  induction xs generalizing as with
  | nil => simp [bytesEvents, List.length_eq_zero_iff.1 hlen.symm, sampledAcks]
  | cons x xs ih =>
    obtain _ | ⟨a, as⟩ := as
    · cases hlen
    · rw [bytesEvents, sampledAcks_append, sampledAcks_byteEvents, ih (Nat.succ.inj hlen), List.singleton_append]

/-- R77: the samples of a frame are its draws. -/
theorem sampledAcks_frameEvents {xs : List Byte} {as : List Bool} (hlen : xs.length = as.length) :
    sampledAcks (frameEvents xs as) = as := by
  have hbegin : sampledAcks beginEvents = [] := rfl
  have hend : sampledAcks endEvents = [] := rfl
  rw [frameEvents, sampledAcks_append, sampledAcks_append, sampledAcks_bytesEvents hlen, hbegin, hend, List.nil_append,
    List.append_nil]

/-- R16: a step runs an instruction whose encoding is issued next. -/
theorem step_encoded {s : State} (h : s.Running) {i : Instr} (hwf : i.wellFormed = true) {rest : List HostInput}
    (hp : s.pending = encode i :: rest) : step s = exec i { s with pending := rest } :=
  step_run h hp (decodeOfEncodeIsTheInstruction i hwf)

/-- A run of one more step, from its first. -/
theorem steps_succ_of_step {s t : State} (h : step s = .next t) (n : Nat) : steps (n + 1) s = steps n t := by
  rw [steps, h]

/-- A run cut in two. -/
theorem steps_add {s t : State} {m : Nat} (h : steps m s = .next t) (n : Nat) : steps (m + n) s = steps n t := by
  induction m generalizing s with
  | zero =>
    cases h
    rw [Nat.zero_add]
  | succ m ih =>
    rw [steps] at h
    split at h
    case h_1 u hu => rw [Nat.succ_add, steps_succ_of_step hu, ih h]
    all_goals cases h

/-- R42: issued SENDs in an open session put their bytes on the wire and return their draws. -/
theorem steps_sends {s : State} (hrun : s.Running) (ho : s.bus.sessOpen = true) {bytes : List Byte}
    {rest : List HostInput} (hp : s.pending = (bytes.map Instr.send).map encode ++ rest) :
    ∃ b : Bus, b.sessOpen = true ∧ b.trace = s.bus.trace ++ bytesEvents bytes (s.bus.draws bytes.length) ∧
      steps bytes.length s =
        .next { s with
          bus := b, pending := rest
          results := s.results ++ (s.bus.draws bytes.length).map .ack } := by
  induction bytes generalizing s with
  | nil =>
    obtain rfl : s.pending = rest := hp
    exact ⟨s.bus, ho, (List.append_nil _).symm, by simp [steps, Bus.draws]⟩
  | cons x xs ih =>
    have hstep := (step_encoded hrun (i := .send x) rfl hp).trans
      (exec_send_open (s := { s with pending := (xs.map Instr.send).map encode ++ rest }) ho x)
    have hdraws : (s.bus.shiftByte x).2.draws xs.length =
        Bus.draws { s.bus with acks := s.bus.acks.tail, samples := s.bus.samples + 1 } xs.length := by
      rw [Bus.shiftByte_snd]
      exact Bus.draws_congr (by rfl) (by rfl) _
    obtain ⟨b, hb, htrace, hsteps⟩ := ih (s := { s with
      bus := (s.bus.shiftByte x).2
      pending := (xs.map Instr.send).map encode ++ rest
      results := s.results ++ [.ack s.bus.nextAck] }) hrun (by rw [Bus.shiftByte_snd]; exact ho) rfl
    rw [hdraws] at htrace hsteps
    refine ⟨b, hb, ?_, ?_⟩
    · rw [htrace, Bus.shiftByte_trace, List.length_cons, Bus.draws, bytesEvents, List.append_assoc]
    · rw [List.length_cons, steps_succ_of_step hstep, hsteps, Bus.draws, List.map_cons, List.append_assoc]
      rfl

/-- R42: a listener at an idle bus is ready for a frame. -/
theorem FrameReader.idle_ready : FrameReader.idle.Ready false true := ⟨rfl, rfl, rfl, rfl, rfl, rfl⟩

/-- Settles O27: BEGIN, the SENDs and END add the events of one frame, which a listener reads. -/
theorem frameCarriesItsBytes : Obligations.FrameCarriesItsBytes := by
  intro s bytes rest hrun hclosed hp
  have hp : s.pending = encode .beginFrame :: ((bytes.map Instr.send).map encode ++ (encode .endFrame :: rest)) := by
    simpa [Pseudo.expand] using hp
  have hbegin := (step_encoded hrun rfl hp).trans (exec_beginFrame_closed hclosed)
  obtain ⟨b, ho, htrace, hsends⟩ := steps_sends (s := { s with
    bus := s.bus.startFrame
    pending := (bytes.map Instr.send).map encode ++ (encode .endFrame :: rest)
    results := s.results ++ [.none] }) hrun rfl rfl
  have hend := (step_encoded (s := { s with
    bus := b
    pending := encode .endFrame :: rest
    results := s.results ++ [.none] ++ (s.bus.startFrame.draws bytes.length).map .ack }) hrun rfl rfl).trans
      (exec_endFrame_open ho)
  have hlen : (s.bus.startFrame.draws bytes.length).length = bytes.length := Bus.draws_length _ _
  generalize s.bus.startFrame.draws bytes.length = acks at hsends hend htrace hlen
  have hread := FrameReader.read_frame FrameReader.idle_ready bytes acks hlen.symm
  have hsteps : steps (bytes.length + 2) s = steps 0 _ :=
    (steps_succ_of_step hbegin _).trans ((steps_add hsends 1).trans (steps_succ_of_step hend 0))
  refine ⟨_, frameEvents bytes acks, acks, hsteps, ?trace, hlen, (sampledAcks_frameEvents hlen.symm).symm, ?frames,
    ?wellFormed, rfl⟩
  case trace =>
    simp only [Bus.stopFrame_trace, htrace, Bus.startFrame_trace, frameEvents, List.append_assoc]
  case frames => rw [hread]; rfl
  case wellFormed => rw [hread]; rfl

end Sys2Proof.Machine
end

section
/-! The chip's answers are advisory (R77, R79, R114): two runs of an instruction that differ in them agree on everything
but the samples, the acknowledgement bits and the level they leave on DIO. -/

namespace Sys2Proof.Machine

/-- A state with other answers of the chip to come (R77). -/
def State.withAcks (s : State) (acks : List Bool) : State := { s with bus := { s.bus with acks := acks } }

/-- R79: two states that agree apart from the acknowledgements, reached from states with one trace. -/
structure State.Agrees (trace : List Event) (t u : State) : Prop where
  events : ∃ e f, t.bus.trace = trace ++ e ∧ u.bus.trace = trace ++ f ∧ withoutAcks e = withoutAcks f
  results : List.Forall₂ Result.sameButAck t.results u.results
  state : t.sameButAcks u
  samples : t.bus.samples = u.bus.samples
  clkLvl : t.bus.clkLvl = u.bus.clkLvl
  dioDir : t.bus.dioDir = u.bus.dioDir

/-- R79: two outcomes, each a next state, that agree apart from the acknowledgements. -/
def AgreeButAcks (trace : List Event) (o p : Host.Outcome State Fault Refusal) : Prop :=
  ∃ t u, o = .next t ∧ p = .next u ∧ State.Agrees trace t u

theorem Result.forall₂_sameButAck_refl (l : List Result) : List.Forall₂ Result.sameButAck l l :=
  List.forall₂_same.2 fun _ _ => .inl rfl

/-- R79: one more acknowledgement bit on each side. -/
theorem Result.forall₂_sameButAck_ack (l : List Result) (a b : Bool) :
    List.Forall₂ Result.sameButAck (l ++ [.ack a]) (l ++ [.ack b]) :=
  List.rel_append (Result.forall₂_sameButAck_refl l) (.cons (.inr ⟨a, b, rfl, rfl⟩) .nil)

/-- R79: where no sample is taken, the answers to come make no difference. -/
theorem agreeButAcks_of_trace {trace : List Event} {o p : Host.Outcome State Fault Refusal} {t : State}
    (acks : List Bool) (ho : o = .next t) (hp : p = .next (t.withAcks acks)) (h : ∃ e, t.bus.trace = trace ++ e) :
    AgreeButAcks trace o p := by
  obtain ⟨e, he⟩ := h
  exact ⟨t, t.withAcks acks, ho, hp, ⟨e, e, he, he, rfl⟩, Result.forall₂_sameButAck_refl _,
    ⟨rfl, rfl, rfl, rfl, rfl, rfl, rfl, rfl, rfl, rfl⟩, rfl, rfl, rfl⟩

/-- R79: an outcome that leaves the lines as they are. -/
theorem agreeButAcks_of_bus {b : Bus} {o p : Host.Outcome State Fault Refusal} {t : State} (acks : List Bool)
    (ho : o = .next t) (hp : p = .next (t.withAcks acks)) (h : t.bus = b) : AgreeButAcks b.trace o p :=
  agreeButAcks_of_trace acks ho hp ⟨[], by rw [h, List.append_nil]⟩

/-- R76, R79: a byte put on the wire, or the fault of doing so with no session open. -/
theorem State.sendByte_agrees (s : State) (acks : List Bool) (b : Byte) :
    AgreeButAcks s.bus.trace (s.sendByte b) ((s.withAcks acks).sendByte b) := by
  cases ho : s.bus.sessOpen
  · exact agreeButAcks_of_bus acks (State.sendByte_closed ho b) (State.sendByte_closed (s := s.withAcks acks) ho b) rfl
  · refine ⟨_, _, State.sendByte_open ho b, State.sendByte_open (s := s.withAcks acks) ho b,
      ⟨_, _, s.bus.shiftByte_trace b, (s.withAcks acks).bus.shiftByte_trace b, ?_⟩,
      Result.forall₂_sameButAck_ack _ _ _, ?_, ?_, ?_, ?_⟩
    · simpa [withoutAcks] using (withoutAcks_byte b s.bus.nextAck []).trans (withoutAcks_byte b _ []).symm
    all_goals simp [State.sameButAcks, Bus.shiftByte_snd, State.withAcks]

/-- R79, R99: a refresh. -/
theorem State.finishStep_agrees (s : State) (acks : List Bool) :
    AgreeButAcks s.bus.trace s.finishStep (s.withAcks acks).finishStep := by
  refine ⟨_, _, rfl, rfl, ⟨_, _, s.refreshBody_trace, (s.withAcks acks).refreshBody_trace, ?_⟩,
    Result.forall₂_sameButAck_ack _ _ _, ?_, ?_, ?_, ?_⟩
  · exact (withoutAcks_frames _ _ (Bus.draws_length _ _)).trans (withoutAcks_frames _ _ (Bus.draws_length _ _)).symm
  all_goals simp [State.sameButAcks, State.refreshBody_eq, State.withAcks, State.refreshBytes]

/-- R79, R101: an animation operation. -/
theorem State.animate_agrees (s next : State) (hbus : next.bus = s.bus) (acks : List Bool) (k : AnimKind)
    (opcode : Byte) (d now : Millis) :
    AgreeButAcks s.bus.trace (s.animate k opcode d now next)
      ((s.withAcks acks).animate k opcode d now (next.withAcks acks)) := by
  by_cases hk : s.anim.kind = k
  · cases hd : s.anim.due now
    · exact agreeButAcks_of_bus acks (State.animate_early hk now hd ..)
        (State.animate_early (s := s.withAcks acks) hk now hd ..) rfl
    · cases ho : s.bus.sessOpen
      · rw [State.animate_due hk hd ho, State.animate_due (s := s.withAcks acks) hk hd ho, ← hbus]
        exact next.finishStep_agrees acks
      · exact agreeButAcks_of_bus acks (State.animate_fault hk hd ho ..)
          (State.animate_fault (s := s.withAcks acks) hk hd ho ..) rfl
  · exact agreeButAcks_of_bus acks (State.animate_start hk ..) (State.animate_start (s := s.withAcks acks) hk ..) rfl

/-- R79, R114: two runs of any instruction. -/
theorem exec_agrees (i : Instr) (s : State) (acks : List Bool) :
    AgreeButAcks s.bus.trace (exec i s) (exec i (s.withAcks acks)) := by
  cases i
  case beginFrame =>
    cases ho : s.bus.sessOpen
    · exact agreeButAcks_of_trace acks (exec_beginFrame_closed ho) (exec_beginFrame_closed (s := s.withAcks acks) ho)
        ⟨_, s.bus.startFrame_trace⟩
    · exact agreeButAcks_of_bus acks (exec_beginFrame_open ho) (exec_beginFrame_open (s := s.withAcks acks) ho) rfl
  case endFrame =>
    cases ho : s.bus.sessOpen
    · exact agreeButAcks_of_bus acks (exec_endFrame_closed ho) (exec_endFrame_closed (s := s.withAcks acks) ho) rfl
    · exact agreeButAcks_of_trace acks (exec_endFrame_open ho) (exec_endFrame_open (s := s.withAcks acks) ho)
        ⟨_, s.bus.stopFrame_trace⟩
  case refresh =>
    cases ho : s.bus.sessOpen
    · rw [← State.finishStep_eq ho, ← State.finishStep_eq (s := s.withAcks acks) ho]
      exact s.finishStep_agrees acks
    · exact agreeButAcks_of_bus acks (exec_refresh_open ho) (exec_refresh_open (s := s.withAcks acks) ho) rfl
  case send | wireDataAuto | wireDataFixed | wireAddr | wireDispOff | wireDispOn | wirePayload =>
    exact s.sendByte_agrees acks _
  case blink d now => exact s.animate_agrees (s.trigger now).stepBlink rfl acks ..
  case fadeOut d now => exact s.animate_agrees (s.trigger now).stepFadeOut rfl acks ..
  case fadeIn d now => exact s.animate_agrees (s.trigger now).stepFadeIn rfl acks ..
  case scroll d now => exact s.animate_agrees (s.trigger now).stepScroll rfl acks ..
  all_goals exact agreeButAcks_of_bus acks rfl rfl rfl

/-- Settles O28: the two runs agree. -/
theorem acknowledgementsAreAdvisory : Obligations.AcknowledgementsAreAdvisory := by
  intro i s acks
  obtain ⟨t, u, ht, hu, ⟨e, f, he, hf, hef⟩, hresults, hstate, hsamples, hclk, hdir⟩ := exec_agrees i s acks
  exact ⟨t, u, e, f, ht, hu, he, hf, hef, hresults, hstate, hsamples, hclk, hdir⟩

end Sys2Proof.Machine
end

section
/-! Showing a number and a colon: a number that fits is right-aligned in the window (R44, R86), and the colon is bit 7 of
every code shown (R87, R88). -/

namespace Sys2Proof.Machine

/-! ### The symbols of a number that fits (R85, R86) -/

/-- R85: how many digits a number has. -/
theorem dec_length {m nd : Nat} (h1 : 1 ≤ nd) (h2 : m < 10 ^ nd) (h3 : nd = 1 ∨ 10 ^ (nd - 1) ≤ m) :
    (dec m).length = nd := by
  rw [dec_eq m nd h1 h2 h3, List.length_map, List.length_range]

/-- R85: the j-th digit from the right. -/
theorem dec_getD {m nd j : Nat} (h1 : 1 ≤ nd) (h2 : m < 10 ^ nd) (h3 : nd = 1 ∨ 10 ^ (nd - 1) ≤ m) (hj : j < nd) :
    (dec m).getD (nd - 1 - j) 0x00#8 = digitSym (m / 10 ^ j % 10) := by
  rw [dec_eq m nd h1 h2 h3, List.getD_eq_getElem _ _ (by simp; omega), List.getElem_map, List.getElem_range,
    show nd - 1 - (nd - 1 - j) = j by omega]

/-- R86: the rendering is the sign, where there is one, and the digits. -/
theorem renderInt_length {v : Int} {nd : Nat} (hdec : (dec v.natAbs).length = nd) :
    (renderInt v).length = (if v < 0 then 1 else 0) + nd := by
  rw [renderInt, List.length_append, hdec]
  split <;> rfl

section
variable {c : Config} {v : Int} {off nd : Nat} (pad : Bool) (hdec : (dec v.natAbs).length = nd)
include hdec

/-- R86: after the fill stands the rendering. -/
theorem numberSyms_render {i : Nat} (hi : c.pN - off - ((if v < 0 then 1 else 0) + nd) ≤ i) :
    (numberSyms c v off pad).getD i 0x00#8 =
      (renderInt v).getD (i - (c.pN - off - ((if v < 0 then 1 else 0) + nd))) 0x00#8 := by
  rw [numberSyms_eq, List.getD_append_right _ _ _ _ (by simpa [renderInt_length hdec] using hi), List.length_replicate,
    renderInt_length hdec]

/-- R86: a negative number's minus sign stands just before its digits. -/
theorem numberSyms_minus (hv : v < 0) : (numberSyms c v off pad).getD (c.pN - off - (1 + nd)) 0x00#8 = 0x2D#8 := by
  rw [numberSyms_render pad hdec (by rw [if_pos hv]), if_pos hv, Nat.sub_self, renderInt, if_pos hv]
  rfl

variable (hfit : off + nd + (if v < 0 then 1 else 0) ≤ c.pN)
include hfit

/-- R86: with its fill, a number that fits takes all the room from the offset on. -/
theorem numberSyms_length : (numberSyms c v off pad).length = c.pN - off := by
  rw [numberSyms_eq, List.length_append, List.length_replicate, renderInt_length hdec]
  omega

/-- R86: before the rendering stands the fill. -/
theorem numberSyms_fill {i : Nat} (hi : off + i + nd + (if v < 0 then 1 else 0) < c.pN) :
    (numberSyms c v off pad).getD i 0x00#8 = if pad = true ∧ 0 ≤ v then 0x30#8 else 0x20#8 := by
  have hlt : i < c.pN - off - (renderInt v).length := by
    rw [renderInt_length hdec]
    omega
  rw [numberSyms_eq, List.getD_append _ _ _ _ (by simpa using hlt), List.getD_replicate _ hlt]

/-- R44, R86: the digit that is j places left of the window's end. -/
theorem numberSyms_digit {j : Nat} (hj : j < nd) :
    (numberSyms c v off pad).getD (c.pN - 1 - j - off) 0x00#8 = (dec v.natAbs).getD (nd - 1 - j) 0x00#8 := by
  rw [numberSyms_render pad hdec (by omega), renderInt]
  split at hfit
  · rw [if_pos ‹_›, if_pos ‹_›, List.getD_append_right _ _ _ _ (by simp; omega), List.length_singleton]
    congr 1
    omega
  · rw [if_neg ‹_›, if_neg ‹_›, List.nil_append]
    congr 1
    omega

end

/-! ### What is stored -/

/-- R84: symbols that take all the room from the offset to the window's end make the content length P_N. -/
theorem Display.setContent_len_of_fits {c : Config} (hc : c.legal = true) {syms : List Byte} {off : Nat}
    (hoff : off ≤ c.pN) (hlen : syms.length = c.pN - off) (ovf : Bool) (d : Display) :
    (d.setContent c syms off ovf false).len = c.pN := by
  have hcap := pN_le_capacity hc ovf
  rw [Display.setContent_len, if_neg (by simp)]
  omega

/-- R84: they are stored from the offset on, and the cells before it keep their codes. -/
theorem Display.setContent_read_of_fits {c : Config} (hc : c.legal = true) {syms : List Byte} {off : Nat}
    (hoff : off ≤ c.pN) (hlen : syms.length = c.pN - off) (ovf : Bool) {d : Display} (hwf : d.buf.wf = true) {i : Nat}
    (hi : i < c.pN) :
    (d.setContent c syms off ovf false).buf.read i =
      if i < off then d.buf.read i else c.enc (syms.getD (i - off) 0x00#8) := by
  have hcap := pN_le_capacity hc ovf
  have ho : min off (capacity c ovf) = off := by omega
  rw [Display.setContent_read hc syms off ovf false hwf, ho]
  split
  · rfl
  · rw [if_pos (by omega)]

/-- Settles O34: the number's symbols, of the length of the room, are stored from the offset on. -/
theorem fittingNumberIsRightAligned : Obligations.FittingNumberIsRightAligned := by
  intro s t v off ovf pad nd hc hwf hpos hlt hleast hfit h
  have hdec := dec_length hpos hlt hleast
  have hlen := numberSyms_length pad hdec hfit
  have hoff : off.toNat ≤ s.cfg.pN := by omega
  have hread := fun {i : Nat} => Display.setContent_read_of_fits (i := i) hc hoff hlen ovf hwf
  rw [exec_setNumber, exec_setContent] at h
  cases h
  refine ⟨Display.setContent_len_of_fits hc hoff hlen ovf s.disp, fun j hj => ?digit, fun hv => ?minus,
    fun p hp hbefore => ?fill, fun p hp => ?kept⟩
  case digit =>
    refine (hread (by omega)).trans ?_
    rw [if_neg (by omega), numberSyms_digit pad hdec hfit hj, dec_getD hpos hlt hleast hj]
    rfl
  case minus =>
    have hminus := numberSyms_minus (c := s.cfg) (off := off.toNat) pad hdec hv
    rw [if_pos hv] at hfit
    refine (hread (by omega)).trans ?_
    rw [if_neg (by omega), show s.cfg.pN - 1 - nd - off.toNat = s.cfg.pN - off.toNat - (1 + nd) by omega, hminus]
    exact Config.enc_fixed hc rfl
  case fill =>
    refine (hread (by omega)).trans ?_
    rw [if_neg (by omega), numberSyms_fill pad hdec hfit (by omega)]
    split
    · exact Config.enc_fixed hc rfl
    · exact Config.enc_fixed hc rfl
  case kept => exact (hread (by omega)).trans (if_pos hp)

/-! ### The colon (R87, R88) -/

/-- R87: the overlay bit is bit 7. -/
theorem Display.overlayBit_low (d : Display) (p : Nat) : d.overlayBit p &&& 0x7F#8 = 0x00#8 := by
  unfold Display.overlayBit
  split <;> rfl

/-- R87: in its other bits a code shown is the window's. -/
theorem Display.txCode_low (c : Config) (d : Display) (p : Nat) :
    d.txCode c p &&& 0x7F#8 = d.winCode c p &&& 0x7F#8 := by
  rw [Display.txCode, BitVec.and_or_distrib_right, Display.overlayBit_low, BitVec.or_zero]

/-- R87: with the colon on, bit 7 is set at every position. -/
theorem Display.txCode_bit7 {d : Display} (h : d.colon = true) (c : Config) (p : Nat) :
    (d.txCode c p).getLsbD 7 = true := by
  simp [Display.txCode, Display.overlayBit, h]

theorem Display.of_txView_getElem? {c : Config} {d : Display} {p : Nat} {x : Byte} (h : (d.txView c)[p]? = some x) :
    p < c.pN ∧ x = d.txCode c p := by
  have hp : p < c.pN := by
    have := (List.getElem?_eq_some_iff.1 h).1
    rwa [Display.txView_length] at this
  exact ⟨hp, Option.some.inj (h.symm.trans (Display.txView_getElem? c d hp))⟩

/-- R90: the step of an issued SETCOLON. -/
theorem step_setColon {s : State} (hrun : s.Running) {c : Bool} {rest : List HostInput}
    (hp : s.pending = encode (.setColon c) :: rest) :
    step s =
      .next { s with
        disp := { s.disp with colon := c }
        pending := rest
        results := s.results ++ [.none] } :=
  step_encoded hrun rfl hp

/-- R88: the step of an issued OVERLAY. -/
theorem step_overlay {s : State} (hrun : s.Running) {rest : List HostInput}
    (hp : s.pending = encode .overlay :: rest) :
    step s = .next { s with pending := rest, results := s.results ++ [.view (s.disp.txView s.cfg)] } :=
  step_encoded hrun rfl hp

/-- Settles O36: the two views are of displays that differ in the colon alone. -/
theorem colonChangesOnlyBitSeven : Obligations.ColonChangesOnlyBitSeven := by
  intro s hrun hp
  have hsteps : steps 4 s = steps 0 _ :=
    (steps_succ_of_step (step_setColon hrun hp) 3).trans
      ((steps_succ_of_step (step_overlay (by exact hrun) rfl) 2).trans
        ((steps_succ_of_step (step_setColon (by exact hrun) rfl) 1).trans
          (steps_succ_of_step (step_overlay (by exact hrun) rfl) 0)))
  refine ⟨_, Display.txView s.cfg { s.disp with colon := true }, Display.txView s.cfg { s.disp with colon := false },
    hsteps, by simp, by simp [Display.txView_length], fun p x y hx hy => ?bits, rfl⟩
  case bits =>
    obtain ⟨-, rfl⟩ := Display.of_txView_getElem? hx
    obtain ⟨-, rfl⟩ := Display.of_txView_getElem? hy
    refine ⟨?_, Display.txCode_bit7 rfl s.cfg p⟩
    rw [Display.txCode_low, Display.txCode_low]
    rfl

end Sys2Proof.Machine
end

section
/-! REFRESH (43_animator.md section 1): the frames it sends, what a listener reads of them, and the number of its events
(R42, R81, R99). -/

namespace Sys2Proof.Machine

/-! ### The frames of a refresh (R99) -/

/-- R99: the frames of a state's refresh, in order. -/
def State.framesToSend (s : State) : List (List Byte) := refreshFrames s.cfg (s.disp.txView s.cfg) s.lvl

/-- R99: the draws of a state's refresh. -/
def State.refreshDraws (s : State) : List Bool := s.bus.draws s.refreshBytes

theorem State.refreshDraws_length (s : State) : s.refreshDraws.length = byteCount s.framesToSend :=
  Bus.draws_length _ _

/-- R99: the frames of a state's refresh, each byte with its draw. -/
def State.sentFrames (s : State) : List (List (Byte × Bool)) := dealAcks s.framesToSend s.refreshDraws

/-- R60: position 0 is the address command's own byte. -/
theorem addrCommand_zero (c : Config) : addrCommand c 0 = c.cmdAddr := BitVec.or_zero

/-- R99: the frames of fixed addressing, position by position. -/
theorem fixedFrames_txView (c : Config) (d : Display) :
    fixedFrames c 0 (d.txView c) = (List.range c.pN).map fun p => [addrCommand c p, d.txCode c p] := by
  refine List.ext_getElem ?_ fun p _ _ => ?_ <;> simp [fixedFrames_eq, Display.txView]

/-- R99: the frames of both addressing modes. -/
theorem State.framesToSend_eq (s : State) :
    s.framesToSend =
      match s.cfg.addrMode with
      | .auto =>
        [[s.cfg.cmdDataAuto], s.cfg.cmdAddr :: (List.range s.cfg.pN).map (s.disp.txCode s.cfg), [dispCtrl s.cfg s.lvl]]
      | .fixed =>
        [s.cfg.cmdDataFixed] ::
          ((List.range s.cfg.pN).map (fun p => [addrCommand s.cfg p, s.disp.txCode s.cfg p])
            ++ [[dispCtrl s.cfg s.lvl]]) := by
  rw [State.framesToSend, refreshFrames]
  cases s.cfg.addrMode
  · simp only [addrCommand_zero]
    rfl
  · simp only [fixedFrames_txView]
    rfl

/-- R99: how many frames a refresh sends. -/
theorem State.framesToSend_length (s : State) :
    s.framesToSend.length =
      match s.cfg.addrMode with
      | .auto => 3
      | .fixed => s.cfg.pN + 2 := by
  rw [State.framesToSend_eq]
  cases s.cfg.addrMode <;> simp

/-- R99: how many bytes a refresh sends. -/
theorem State.byteCount_framesToSend (s : State) :
    byteCount s.framesToSend =
      match s.cfg.addrMode with
      | .auto => s.cfg.pN + 3
      | .fixed => 2 * s.cfg.pN + 2 := by
  have hbytes := byteCount_refreshFrames s.cfg (s.disp.txView s.cfg) s.lvl
  rw [Display.txView_length] at hbytes
  exact hbytes

/-- R42: the events of a refresh are those of its frames. -/
theorem State.refreshBody_trace_sent (s : State) :
    s.refreshBody.2.trace = s.bus.trace ++ s.sentFrames.flatMap sentFrame := by
  rw [State.refreshBody_trace, framesEvents_eq_flatMap]
  rfl

/-- R42: a listener at an idle bus reads the frames of a refresh. -/
theorem State.read_sentFrames (s : State) :
    FrameReader.idle.read (s.sentFrames.flatMap sentFrame) = { FrameReader.idle with frames := s.sentFrames } := by
  rw [State.sentFrames, ← framesEvents_eq_flatMap,
    FrameReader.read_frames FrameReader.idle_ready _ _ s.refreshDraws_length]
  simp [FrameReader.idle]

/-- R99: the draws, gathered from the frames. -/
theorem State.sentFrames_draws (s : State) : s.sentFrames.flatten.map Prod.snd = s.refreshDraws :=
  dealAcks_draws _ _ s.refreshDraws_length

theorem State.sentFrames_count (s : State) : s.sentFrames.flatten.length = s.refreshBytes := by
  rw [← List.length_map (f := Prod.snd), State.sentFrames_draws]
  exact Bus.draws_length _ _

/-- R99: the acknowledgement status is the OR of the draws. -/
theorem State.refreshBody_fst (s : State) : s.refreshBody.1 = s.sentFrames.flatten.any Prod.snd := by
  rw [State.refreshBody_eq, ← State.refreshDraws, ← State.sentFrames_draws, List.any_map]
  rfl

/-- Settles O47: REFRESH with no session open sends its frames, and faults else. -/
theorem refreshSendsItsFramesInOrder : Obligations.RefreshSendsItsFramesInOrder := by
  intro s tx ctrl sent
  have hsent : s.framesToSend = sent := by
    have htx : s.disp.txCode s.cfg = tx := funext (Display.txCode_eq s.cfg s.disp)
    rw [State.framesToSend_eq, htx, dispCtrl_eq]
    rfl
  refine ⟨rfl, fun hclosed => ?_, exec_refresh_open⟩
  refine ⟨_, s.sentFrames, exec_refresh_closed hclosed, ?bytes, fun k a x ha hx => ?draws, s.refreshBody_trace_sent,
    ?read, ?wellFormed, ?closed, ?frame⟩
  case bytes => exact (dealAcks_bytes _ _ s.refreshDraws_length).trans hsent
  case draws =>
    rw [State.sentFrames_draws] at ha
    exact Bus.draws_of_acks ha hx
  case read => rw [State.read_sentFrames]
  case wellFormed => rw [State.read_sentFrames]; rfl
  case closed => rw [State.read_sentFrames]; rfl
  case frame =>
    rw [← State.refreshBody_fst, State.sentFrames_count]
    simp only [State.refreshBody_eq]

/-! ### The number of events (R81) -/

theorem bytesEvents_length {xs : List Byte} {as : List Bool} (hlen : as.length = xs.length) :
    (bytesEvents xs as).length = 47 * xs.length + as.count false := by
  induction xs generalizing as with
  | nil => simp [bytesEvents, List.length_eq_zero_iff.1 hlen]
  | cons x xs ih =>
    obtain _ | ⟨a, as⟩ := as
    · cases hlen
    · rw [bytesEvents, List.length_append, byteEvents_length, ih (Nat.succ.inj hlen), List.length_cons,
        List.count_cons]
      cases a <;> simp <;> omega

/-- R81: a frame's events: 14 of its own, and those of its bytes. -/
theorem frameEvents_length {xs : List Byte} {as : List Bool} (hlen : as.length = xs.length) :
    (frameEvents xs as).length = 14 + 47 * xs.length + as.count false := by
  rw [frameEvents, List.length_append, List.length_append, bytesEvents_length hlen, beginEvents, endEvents]
  simp
  omega

/-- R77, R81: the events of a sequence of frames, and their samples. -/
theorem framesEvents_count {fs : List (List Byte)} {as : List Bool} (hlen : as.length = byteCount fs) :
    (framesEvents fs as).length = 14 * fs.length + 47 * byteCount fs + as.count false ∧
      sampledAcks (framesEvents fs as) = as := by
  induction fs generalizing as with
  | nil => simp [framesEvents, byteCount, List.length_eq_zero_iff.1 hlen, sampledAcks]
  | cons f fs ih =>
    have hcount : byteCount (f :: fs) = f.length + byteCount fs := by simp [byteCount]
    have htake : (as.take f.length).length = f.length := by simp; omega
    obtain ⟨hlength, hsamples⟩ := ih (as := as.drop f.length) (by simp; omega)
    constructor
    · have hfalse : (as.take f.length).count false + (as.drop f.length).count false = as.count false := by
        rw [← List.count_append, List.take_append_drop]
      rw [framesEvents, List.length_append, frameEvents_length htake, hlength, hcount, List.length_cons]
      omega
    · rw [framesEvents, sampledAcks_append, sampledAcks_frameEvents htake.symm, hsamples, List.take_append_drop]

/-- Settles O48: the events of the frames are counted, and so are the frames and their bytes. -/
theorem refreshEventCount : Obligations.RefreshEventCount := by
  intro s hclosed frames bytes
  obtain ⟨hlength, hsamples⟩ := framesEvents_count s.refreshDraws_length
  refine ⟨_, framesEvents s.framesToSend s.refreshDraws, exec_refresh_closed hclosed, s.refreshBody_trace, ?samples,
    ?events⟩ <;> rw [hsamples]
  case samples => exact s.refreshDraws_length.trans s.byteCount_framesToSend
  case events =>
    rw [State.framesToSend_length, State.byteCount_framesToSend] at hlength
    exact hlength

end Sys2Proof.Machine
end

section
/-! Animations as runs of ticks (43_animator.md): a start, an early tick, a due tick, and the number of due ticks that a
fade and a scroll take (R101 to R106). -/

namespace Sys2Proof.Machine

/-! ### One call (R101, R106) -/

/-- Settles O49: each operation starts its animation where another kind or none runs. -/
theorem animationStartArmsTheTimer : Obligations.AnimationStartArmsTheTimer := by
  intro s d now p hp hk
  fin_cases hp <;> exact State.animate_start hk ..

/-- Settles O50: each operation waits where its own kind runs and the interval has not elapsed. -/
theorem earlyTickDoesNothing : Obligations.EarlyTickDoesNothing := by
  intro s d now hearly p hp hk
  have hdue : s.anim.due now = false := (State.early_iff s now).2 (Nat.not_le.2 hearly)
  fin_cases hp <;> exact State.animate_early hk now hdue ..

/-- R106: the trigger and the scroll step. -/
theorem State.scrollTick_eq (s : State) (now : Millis) :
    (s.trigger now).stepScroll =
      if s.disp.len < s.disp.win + 1
      then { s with disp := { s.disp with win := 0 }, anim := { s.anim with kind := .idle, last := now } }
      else { s with disp := { s.disp with win := s.disp.win + 1 }, anim := { s.anim with last := now } } := by
  split
  · exact State.stepScroll_end (s := s.trigger now) ‹_›
  · exact State.stepScroll_within (s := s.trigger now) (Nat.le_of_not_lt ‹_›)

/-- Settles O54: the trigger and the scroll step leave the state described, and the tick ends with its REFRESH. -/
theorem scrollTickAdvancesTheWindow : Obligations.ScrollTickAdvancesTheWindow := by
  intro s d now hk hd ho u
  rw [show u = (s.trigger now).stepScroll from (State.scrollTick_eq s now).symm]
  exact State.animate_refreshes (next := (s.trigger now).stepScroll) hk hd ho rfl 0x43#8 d

/-! ### One issued tick -/

/-- R16, R101: the step of an issued tick that is due, with no session open. It leaves the state of the animation's step
but for the lines, where no session is open, and the results. -/
theorem step_tick {s next : State} {i : Instr} {k : AnimKind} {opcode : Byte} {d now : Millis} {rest : List HostInput}
    (hrun : s.Running) (ho : s.bus.sessOpen = false) (hk : s.anim.kind = k) (hd : s.dueAt now)
    (hp : s.pending = encode i :: rest) (hwf : i.wellFormed = true)
    (hexec : exec i { s with pending := rest } = State.animate { s with pending := rest } k opcode d now next)
    (hbus : next.bus = s.bus) :
    ∃ t, step s = .next t ∧ t.bus.sessOpen = false ∧ t = { next with bus := t.bus, results := t.results } := by
  obtain ⟨t, hanimate, hrefresh, ht⟩ :=
    State.animate_refreshes (s := { s with pending := rest }) hk hd ho hbus opcode d
  refine ⟨t, (step_encoded hrun hwf hp).trans (hexec.trans hanimate), ?_, ht⟩
  rw [exec_refresh_closed (hbus ▸ ho)] at hrefresh
  cases hrefresh
  rw [State.refreshBody_eq]

section
variable {s : State} {d now : Millis} {rest : List HostInput} (hrun : s.Running) (ho : s.bus.sessOpen = false)
  (hd : s.dueAt now)
include hrun ho hd

/-- R103: an issued blink tick. -/
theorem step_blink (hk : s.anim.kind = .blink) (hp : s.pending = encode (.blink d now) :: rest) :
    ∃ t, step s = .next t ∧ t.bus.sessOpen = false ∧
      t = { s with
        lvl := blinkLevel s.lvl s.anim.saved
        anim := { s.anim with last := now, saved := blinkSaved s.lvl s.anim.saved }
        pending := rest, bus := t.bus, results := t.results } :=
  step_tick hrun ho hk hd hp rfl rfl rfl

/-- R104: an issued fade-out tick. -/
theorem step_fadeOut (hk : s.anim.kind = .fadeOut) (hp : s.pending = encode (.fadeOut d now) :: rest) :
    ∃ t, step s = .next t ∧ t.bus.sessOpen = false ∧
      t = { s with
        lvl := fadeOutLevel s.lvl
        anim := { s.anim with kind := if (fadeOutLevel s.lvl).toNat ≤ 1 then .idle else .fadeOut, last := now }
        pending := rest, bus := t.bus, results := t.results } := by
  have h := step_tick hrun ho hk hd hp rfl rfl rfl
  rwa [State.fadeOutTick_eq (s := { s with pending := rest }) hk] at h

/-- R105: an issued fade-in tick. -/
theorem step_fadeIn (hk : s.anim.kind = .fadeIn) (hp : s.pending = encode (.fadeIn d now) :: rest) :
    ∃ t, step s = .next t ∧ t.bus.sessOpen = false ∧
      t = { s with
        lvl := fadeInLevel s.lvl
        anim := { s.anim with kind := if (fadeInLevel s.lvl).toNat = 8 then .idle else .fadeIn, last := now }
        pending := rest, bus := t.bus, results := t.results } := by
  have h := step_tick hrun ho hk hd hp rfl rfl rfl
  rwa [State.fadeInTick_eq (s := { s with pending := rest }) hk] at h

/-- R106: an issued scroll tick. -/
theorem step_scroll (hk : s.anim.kind = .scroll) (hp : s.pending = encode (.scroll d now) :: rest) :
    ∃ t, step s = .next t ∧ t.bus.sessOpen = false ∧
      t = { s with
        disp := { s.disp with win := if s.disp.len < s.disp.win + 1 then 0 else s.disp.win + 1 }
        anim := { s.anim with kind := if s.disp.len < s.disp.win + 1 then .idle else s.anim.kind, last := now }
        pending := rest, bus := t.bus, results := t.results } :=
  step_tick hrun ho hk hd hp rfl rfl rfl

end

/-! ### A run of issued ticks -/

/-- A block that runs the next input with no session open and an interval armed at a time. -/
structure State.Ticking (s : State) (interval last : Millis) (pending : List HostInput) : Prop where
  running : s.Running
  closed : s.bus.sessOpen = false
  interval : s.anim.interval = interval
  last : s.anim.last = last
  pending : s.pending = pending

/-- R101: a run of due ticks. Where a tick takes a state with n + 1 of them to come to one with n to come, j ticks take a
state with all of them to come to one with all but j. -/
theorem steps_ticks {tick : Millis → Millis → Instr} {Left : Nat → State → Prop} {interval : Millis}
    (htick : ∀ {n : Nat} {s : State} {d last now : Millis} {rest : List HostInput},
      s.Ticking interval last (encode (tick d now) :: rest) → Left (n + 1) s → s.dueAt now →
        ∃ t, step s = .next t ∧ t.Ticking interval now rest ∧ Left n t)
    {ticks : List (Millis × Millis)} {s : State} {last : Millis}
    (hs : s.Ticking interval last (ticks.map fun p => encode (tick p.1 p.2))) (hleft : Left ticks.length s)
    (hdue : dueTimes interval last (ticks.map Prod.snd)) {j : Nat} (hj : j ≤ ticks.length) :
    ∃ t, steps j s = .next t ∧ Left (ticks.length - j) t := by
  induction ticks generalizing s last j with
  | nil =>
    obtain rfl : j = 0 := Nat.le_zero.1 hj
    exact ⟨s, rfl, hleft⟩
  | cons p ticks ih =>
    obtain _ | j := j
    · exact ⟨s, rfl, hleft⟩
    · obtain ⟨hnow, hlater⟩ := hdue
      obtain ⟨t, hstep, ht, htleft⟩ := htick hs hleft (by rwa [State.dueAt, hs.interval, hs.last])
      obtain ⟨u, hsteps, hu⟩ := ih ht htleft hlater (Nat.le_of_succ_le_succ hj)
      exact ⟨u, (steps_succ_of_step hstep j).trans hsteps, by rwa [List.length_cons, Nat.add_sub_add_right]⟩

/-- Settles O57: the first tick saves the level and turns the display off, and the second restores it. -/
theorem twoBlinkTicksRestoreTheLevel : Obligations.TwoBlinkTicksRestoreTheLevel := by
  rintro s d₁ d₂ n₁ n₂ hrun hk ho hlit ⟨hdue₁, hdue₂, -⟩ hp
  obtain ⟨t, hstep, hot, ht⟩ := step_blink hrun ho hdue₁ hk hp
  rw [blinkLevel, blinkSaved, if_neg hlit, if_neg hlit] at ht
  obtain ⟨u, hstep', -, hu⟩ := step_blink (s := t) (d := d₂) (now := n₂) (rest := []) (by rw [ht]; exact hrun) hot
    (by rw [ht]; exact hdue₂) (by rw [ht]; exact hk) (by rw [ht])
  rw [ht] at hu
  refine ⟨t, u, hstep, hstep', ?_, ?_, ?_, ?_, ?_⟩
  · rw [ht]
  · rw [hu]
    rfl
  · rw [hu]
    exact hk
  · rw [hu]
  · rw [hu]

/-- R104: a fade-out with n ticks to come. -/
structure FadeOutLeft (n : Nat) (s : State) : Prop where
  lvl : s.lvl.toNat = n + 1
  kind : s.anim.kind = if n = 0 then .idle else .fadeOut

/-- R104: a fade-out tick leaves one less to come. -/
theorem FadeOutLeft.tick {interval : Millis} {n : Nat} {s : State} {d last now : Millis} {rest : List HostInput}
    (hs : s.Ticking interval last (encode (.fadeOut d now) :: rest)) (hleft : FadeOutLeft (n + 1) s)
    (hd : s.dueAt now) : ∃ t, step s = .next t ∧ t.Ticking interval now rest ∧ FadeOutLeft n t := by
  obtain ⟨hrun, ho, hinterval, -, hp⟩ := hs
  obtain ⟨hlvl, hk⟩ := hleft
  obtain ⟨t, hstep, hot, ht⟩ := step_fadeOut hrun ho hd hk hp
  have hlower : (fadeOutLevel s.lvl).toNat = n + 1 := by
    rw [fadeOutLevel_toNat, hlvl, if_pos (by omega), Nat.add_sub_cancel]
  have hends : n + 1 ≤ 1 ↔ n = 0 := by omega
  simp only [hlower, hends] at ht
  refine ⟨t, hstep, ⟨?_, hot, ?_, ?_, ?_⟩, ?_, ?_⟩ <;> rw [ht]
  · exact hrun
  · exact hinterval
  · exact hlower

/-- Settles O58: with n ticks to come the level is n + 1, and the fade has ended when none is. -/
theorem fadeOutReachesTheFloor : Obligations.FadeOutReachesTheFloor := by
  intro s ticks hrun hk ho hlvl hlen hdue hp j hj
  obtain ⟨t, hsteps, hlvl', hkind⟩ := steps_ticks (tick := .fadeOut) FadeOutLeft.tick ⟨hrun, ho, rfl, rfl, hp⟩
    ⟨hlen.symm, by rw [hk, if_neg (by omega)]⟩ hdue hj
  have hended : ticks.length - j = 0 ↔ j = ticks.length := by omega
  exact ⟨t, hsteps, by omega, by omega, by simpa only [hended] using hkind⟩

/-- R105: a fade-in with n ticks to come. -/
structure FadeInLeft (n : Nat) (s : State) : Prop where
  lvl : n + s.lvl.toNat = 8
  kind : s.anim.kind = if n = 0 then .idle else .fadeIn

/-- R105: a fade-in tick leaves one less to come. -/
theorem FadeInLeft.tick {interval : Millis} {n : Nat} {s : State} {d last now : Millis} {rest : List HostInput}
    (hs : s.Ticking interval last (encode (.fadeIn d now) :: rest)) (hleft : FadeInLeft (n + 1) s)
    (hd : s.dueAt now) : ∃ t, step s = .next t ∧ t.Ticking interval now rest ∧ FadeInLeft n t := by
  obtain ⟨hrun, ho, hinterval, -, hp⟩ := hs
  obtain ⟨hlvl, hk⟩ := hleft
  obtain ⟨t, hstep, hot, ht⟩ := step_fadeIn hrun ho hd hk hp
  have hhigher : n + (fadeInLevel s.lvl).toNat = 8 := by
    rw [fadeInLevel_toNat, if_pos (by omega)]
    omega
  have hends : (fadeInLevel s.lvl).toNat = 8 ↔ n = 0 := by omega
  simp only [hends] at ht
  refine ⟨t, hstep, ⟨?_, hot, ?_, ?_, ?_⟩, ?_, ?_⟩ <;> rw [ht]
  · exact hrun
  · exact hinterval
  · exact hhigher

/-- Settles O59: with n ticks to come the level is 8 - n, and the fade has ended when none is. -/
theorem fadeInReachesTheTop : Obligations.FadeInReachesTheTop := by
  intro s ticks hrun hk ho hlvl hlen hdue hp j hj
  obtain ⟨t, hsteps, hlvl', hkind⟩ := steps_ticks (tick := .fadeIn) FadeInLeft.tick ⟨hrun, ho, rfl, rfl, hp⟩
    ⟨hlen, by rw [hk, if_neg (by omega)]⟩ hdue hj
  have hended : ticks.length - j = 0 ↔ j = ticks.length := by omega
  exact ⟨t, hsteps, by omega, by omega, by simpa only [hended] using hkind⟩

/-- R106: a scroll over a buffer of a content length, with n ticks to come. -/
structure ScrollLeft (buf : Memory) (len n : Nat) (s : State) : Prop where
  buf_eq : s.disp.buf = buf
  len_eq : s.disp.len = len
  win : if n = 0 then s.disp.win = 0 else s.disp.win + n = len + 1
  kind : s.anim.kind = if n = 0 then .idle else .scroll

/-- R106: a scroll tick leaves one less to come. -/
theorem ScrollLeft.tick {buf : Memory} {len : Nat} {interval : Millis} {n : Nat} {s : State} {d last now : Millis}
    {rest : List HostInput} (hs : s.Ticking interval last (encode (.scroll d now) :: rest))
    (hleft : ScrollLeft buf len (n + 1) s) (hd : s.dueAt now) :
    ∃ t, step s = .next t ∧ t.Ticking interval now rest ∧ ScrollLeft buf len n t := by
  obtain ⟨hrun, ho, hinterval, -, hp⟩ := hs
  obtain ⟨hbuf, hlen, hwin, hk⟩ := hleft
  rw [if_neg n.succ_ne_zero] at hwin hk
  obtain ⟨t, hstep, hot, ht⟩ := step_scroll hrun ho hd hk hp
  have hends : s.disp.len < s.disp.win + 1 ↔ n = 0 := by omega
  simp only [hends, hk] at ht
  refine ⟨t, hstep, ⟨?_, hot, ?_, ?_, ?_⟩, ?_, ?_, ?_, ?_⟩ <;> rw [ht]
  · exact hrun
  · exact hinterval
  · exact hbuf
  · exact hlen
  · by_cases hn : n = 0
    · simp only [hn, if_true]
    · simp only [hn, if_false]
      omega

/-- Settles O60: with n ticks to come, not 0, the window is at L + 1 - n, and the scroll has ended when none is. -/
theorem scrollEndsAfterContentLengthPlusOneTicks : Obligations.ScrollEndsAfterContentLengthPlusOneTicks := by
  intro s ticks hrun hk ho hwin hlen hdue hp
  have hrun_ticks := fun {j : Nat} => steps_ticks (tick := .scroll) (j := j) ScrollLeft.tick ⟨hrun, ho, rfl, rfl, hp⟩
    ⟨rfl, rfl, by rw [hwin, if_neg (by omega)]; omega, by rw [hk, if_neg (by omega)]⟩ hdue
  constructor
  · intro j hj
    obtain ⟨t, hsteps, -, -, hwin', hkind⟩ := hrun_ticks (j := j) (by omega)
    rw [if_neg (by omega)] at hwin' hkind
    exact ⟨t, hsteps, hkind, by omega⟩
  · obtain ⟨t, hsteps, hbuf, -, hwin', hkind⟩ := hrun_ticks (j := s.disp.len + 1) (by omega)
    rw [if_pos (by omega)] at hwin' hkind
    exact ⟨t, hsteps, hkind, hwin', hbuf⟩

end Sys2Proof.Machine
end
